-- ==== Sys2Proof/Word.lean ====
section
/-! DEFINITION. The 12-bit word and the two field widths that instructions and addresses are made of
(00_scope R4, R5, R7). -/

namespace Sys2Proof

/-- A machine word, which is also an address (R4, R5): memory has 4096 words, so both are 12 bits wide. -/
abbrev Word := BitVec 12

/-- The offset field of a memory-reference instruction (R7, R61). -/
abbrev Offset := BitVec 7

end Sys2Proof
end

