-- ==== Sys2Proof/Config.lean ====
section
/-! DEFINITION. The two parameters that the spec leaves OPEN and that instructions use (00_scope R9). Neither has a
body: nothing in Lean can evaluate them, so a theorem holds for every value they may have. The third open parameter,
initialState, is an argument of `Sys2Proof.Machine.launch`. -/

namespace Sys2Proof

/-- Whether punch operation bit 0 clears the ready flag when it skips (R153; 92_eei_decisions D14, OPEN; log entry 6). -/
opaque Config.punchSkipClearsFlag : Bool

/-- The unconstrained result of a Group-1 rotate with RAR and RAL both set (R183; 92_eei_decisions D9, OPEN; log
entry 5). It is the free value number `n` of the run: the first argument counts the draws taken so far, the others are
AC and L as sequence 3 left them, and the result is the new AC and L. -/
opaque Config.draw1 : Nat → Word → Bool → Word × Bool

end Sys2Proof
end

