-- ==== Sys2Proof/Syntax.lean ====
section
/-! DEFINITION. The instructions: one constructor per row of spec/opcode_table.json, with the operand fields that
30_encoding R61 to R65 give the row's format. -/

namespace Sys2Proof

/-- The eight independent enable bits of an operate Group-1 word, named as R64 names them (`IR[7]` first). -/
structure Group1 where
  /-- IR[7], Clear-Accumulator. -/
  cla : Bool := false
  /-- IR[6], Clear-Link. -/
  cll : Bool := false
  /-- IR[5], Complement-Accumulator. -/
  cma : Bool := false
  /-- IR[4], Complement-Link. -/
  cml : Bool := false
  /-- IR[3], Rotate-Right. -/
  rar : Bool := false
  /-- IR[2], Rotate-Left. -/
  ral : Bool := false
  /-- IR[1], the rotate-by-2 mode bit. -/
  two : Bool := false
  /-- IR[0], Increment-Accumulator. -/
  iac : Bool := false
  deriving DecidableEq, Repr

/-- The seven bits of an operate Group-2 word below the group selector (R65; `IR[7]` first, `IR[0]` is 0). -/
structure Group2 where
  /-- IR[7], clear AC after the test. -/
  cla : Bool := false
  /-- IR[6], the sign condition: SMA in the OR family, SPA in the AND family. -/
  sign : Bool := false
  /-- IR[5], the zero condition: SZA in the OR family, SNA in the AND family. -/
  zero : Bool := false
  /-- IR[4], the link condition: SNL in the OR family, SZL in the AND family. -/
  link : Bool := false
  /-- IR[3], the family select: false is the OR family, true the AND family. -/
  andFamily : Bool := false
  /-- IR[2], unassigned (R204). -/
  unused : Bool := false
  /-- IR[1], halt. -/
  hlt : Bool := false
  deriving DecidableEq, Repr

/-- An instruction. Each constructor stands for the row of spec/opcode_table.json that LAWS.json names for it. -/
inductive Instr where
  /-- R131; `i` is the Indirect bit, `z` the PageZero bit (true means page 0). -/
  | and (i z : Bool) (off : Offset)
  /-- R132. -/
  | tad (i z : Bool) (off : Offset)
  /-- R133. -/
  | isz (i z : Bool) (off : Offset)
  /-- R134. -/
  | dca (i z : Bool) (off : Offset)
  /-- R135. -/
  | jms (i z : Bool) (off : Offset)
  /-- R136. -/
  | jmp (i z : Bool) (off : Offset)
  /-- R151: IOT to device 3, with its three operation bits. -/
  | iotReader (ops : BitVec 3)
  /-- R157: IOT to device 4; operation bit 0 (`skip`), bit 1 (`clear`) and bit 2 (`send`). -/
  | iotPunch (skip clear send : Bool)
  /-- R156: IOT to any other device. -/
  | iotUnknown (dev : BitVec 6) (ops : BitVec 3)
  /-- R184: a Group-1 word that no row of its own names. -/
  | oprGroup1 (g : Group1)
  /-- R206: a Group-2 word that no row of its own names. -/
  | oprGroup2 (g : Group2)
  /-- R205: an OPR word in neither group; `bits` is `IR[7:1]`. -/
  | oprNeither (bits : BitVec 7)
  /-- R181, 0o7000. -/
  | nop
  /-- R176, 0o7001. -/
  | iac
  /-- R178, 0o7004. -/
  | ral
  /-- R180, 0o7006. -/
  | rtl
  /-- R177, 0o7010. -/
  | rar
  /-- R179, 0o7012. -/
  | rtr
  /-- R175, 0o7020. -/
  | cml
  /-- R174, 0o7040. -/
  | cma
  /-- R173, 0o7100. -/
  | cll
  /-- R172, 0o7200. -/
  | cla
  /-- R203, 0o7402. -/
  | hlt
  /-- R200, 0o7410. -/
  | skp
  /-- R196, 0o7420. -/
  | snl
  /-- R199, 0o7430. -/
  | szl
  /-- R195, 0o7440. -/
  | sza
  /-- R198, 0o7450. -/
  | sna
  /-- R194, 0o7500. -/
  | sma
  /-- R197, 0o7510. -/
  | spa
  /-- R202, 0o7600. -/
  | claGroup2
  /-- R201, 0o7400. -/
  | oprGroup2NoBits
  deriving DecidableEq, Repr

end Sys2Proof
end

