-- ==== Sys2Proof/WellFormed.lean ====
section
/-! DEFINITION. Which terms of `Instr` are instructions: a generic row of the opcode table stands only for the words
that no more specific row names (30_encoding R68, R70, R71; log entry 15), so every word has exactly one term. -/

namespace Sys2Proof

/-- The Group-1 bit patterns that have a row of their own, in the order of R71's Group-1 table. -/
def namedGroup1 : List Group1 :=
  [{}, { iac := true }, { ral := true }, { ral := true, two := true }, { rar := true },
   { rar := true, two := true }, { cml := true }, { cma := true }, { cll := true }, { cla := true }]

/-- The Group-2 bit patterns that have a row of their own: no bits (R201), then R71's Group-2 table. -/
def namedGroup2 : List Group2 :=
  [{}, { hlt := true }, { andFamily := true }, { link := true }, { link := true, andFamily := true },
   { zero := true }, { zero := true, andFamily := true }, { sign := true },
   { sign := true, andFamily := true }, { cla := true }]

/-- A device code that names a device (R150): the reader 0o03 or the punch 0o04. -/
def knownDevice (dev : BitVec 6) : Bool := dev == 0o03#6 || dev == 0o04#6

/-- The checks on an instruction: an unknown-device IOT names neither device, and a generic operate word is not one
that a row of its own names. -/
def Instr.wf : Instr → Bool
  | .and _ _ _ => true
  | .tad _ _ _ => true
  | .isz _ _ _ => true
  | .dca _ _ _ => true
  | .jms _ _ _ => true
  | .jmp _ _ _ => true
  | .iotReader _ => true
  | .iotPunch _ _ _ => true
  | .iotUnknown dev _ => !knownDevice dev
  | .oprGroup1 g => !namedGroup1.contains g
  | .oprGroup2 g => !namedGroup2.contains g
  | .oprNeither _ => true
  | .nop => true
  | .iac => true
  | .ral => true
  | .rtl => true
  | .rar => true
  | .rtr => true
  | .cml => true
  | .cma => true
  | .cll => true
  | .cla => true
  | .hlt => true
  | .skp => true
  | .snl => true
  | .szl => true
  | .sza => true
  | .sna => true
  | .sma => true
  | .spa => true
  | .claGroup2 => true
  | .oprGroup2NoBits => true

end Sys2Proof
end

