-- ==== Sys2Proof/Decode.lean ====
section
/-! DEFINITION. The decoder and the encoder (30_encoding R60 to R74). Every 12-bit word is one whole instruction
(R60) and decoding never fails (R68): an illegal word decodes to a constructor whose meaning raises its error. -/

namespace Sys2Proof

/-- The opcode field `IR[11:9]` (R60). -/
def opcodeField (w : Word) : BitVec 3 := w.extractLsb' 9 3

/-- The offset field `IR[6:0]` (R61). -/
def offsetField (w : Word) : Offset := w.extractLsb' 0 7

/-- The IOT device code `IR[8:3]` (R62). -/
def deviceField (w : Word) : BitVec 6 := w.extractLsb' 3 6

/-- The IOT operation bits `IR[2:0]` (R62). -/
def opsField (w : Word) : BitVec 3 := w.extractLsb' 0 3

/-- The Group-1 enables of a word (R64). -/
def group1Field (w : Word) : Group1 :=
  { cla := w.getLsbD 7, cll := w.getLsbD 6, cma := w.getLsbD 5, cml := w.getLsbD 4,
    rar := w.getLsbD 3, ral := w.getLsbD 2, two := w.getLsbD 1, iac := w.getLsbD 0 }

/-- The Group-2 bits of a word (R65). -/
def group2Field (w : Word) : Group2 :=
  { cla := w.getLsbD 7, sign := w.getLsbD 6, zero := w.getLsbD 5, link := w.getLsbD 4,
    andFamily := w.getLsbD 3, unused := w.getLsbD 2, hlt := w.getLsbD 1 }

/-- A Group-1 word (R63, R64, R71): the named words first, every other combination in the generic form. -/
def decodeGroup1 (w : Word) : Instr :=
  if w = 0o7000#12 then .nop
  else if w = 0o7001#12 then .iac
  else if w = 0o7004#12 then .ral
  else if w = 0o7006#12 then .rtl
  else if w = 0o7010#12 then .rar
  else if w = 0o7012#12 then .rtr
  else if w = 0o7020#12 then .cml
  else if w = 0o7040#12 then .cma
  else if w = 0o7100#12 then .cll
  else if w = 0o7200#12 then .cla
  else .oprGroup1 (group1Field w)

/-- A Group-2 word (R63, R65, R71): the named words first, every other combination in the generic form. -/
def decodeGroup2 (w : Word) : Instr :=
  if w = 0o7400#12 then .oprGroup2NoBits
  else if w = 0o7402#12 then .hlt
  else if w = 0o7410#12 then .skp
  else if w = 0o7420#12 then .snl
  else if w = 0o7430#12 then .szl
  else if w = 0o7440#12 then .sza
  else if w = 0o7450#12 then .sna
  else if w = 0o7500#12 then .sma
  else if w = 0o7510#12 then .spa
  else if w = 0o7600#12 then .claGroup2
  else .oprGroup2 (group2Field w)

/-- An IOT word (R62, R68): the device code alone selects the form. -/
def decodeIot (w : Word) : Instr :=
  if deviceField w = 0o03#6 then .iotReader (opsField w)
  else if deviceField w = 0o04#6 then .iotPunch (w.getLsbD 0) (w.getLsbD 1) (w.getLsbD 2)
  else .iotUnknown (deviceField w) (opsField w)

/-- An OPR word (R63): `IR[8]` and then `IR[0]` select the group. -/
def decodeOpr (w : Word) : Instr :=
  if w.getLsbD 8 then
    if w.getLsbD 0 then .oprNeither (w.extractLsb' 1 7) else decodeGroup2 w
  else decodeGroup1 w

/-- The decoder (R67, R68): total on 12-bit words. -/
def decode (w : Word) : Instr :=
  match (opcodeField w).toNat with
  | 0 => .and (w.getLsbD 8) (w.getLsbD 7) (offsetField w)
  | 1 => .tad (w.getLsbD 8) (w.getLsbD 7) (offsetField w)
  | 2 => .isz (w.getLsbD 8) (w.getLsbD 7) (offsetField w)
  | 3 => .dca (w.getLsbD 8) (w.getLsbD 7) (offsetField w)
  | 4 => .jms (w.getLsbD 8) (w.getLsbD 7) (offsetField w)
  | 5 => .jmp (w.getLsbD 8) (w.getLsbD 7) (offsetField w)
  | 6 => decodeIot w
  | _ => decodeOpr w

/-- The word that the opcode table gives an instruction whose bits are `w` (bit 0 the least significant), `nbits` of
them given and the rest 0; there is none where `w` has a bit that a 12-bit word does not have. -/
def tableWord (nbits w : Nat) : Option Word :=
  if w % 2 ^ nbits < 4096 then some (BitVec.ofNat 12 (w % 2 ^ nbits)) else none

/-- What the decoder reads from an instruction of the opcode table (R60: one word is one instruction). -/
def decodeTableWord (nbits w : Nat) : Option Instr := (tableWord nbits w).map decode

/-- A memory-reference word (R61): opcode, I, Z, offset, from the most significant bit down. -/
def encodeMemRef (op : BitVec 3) (i z : Bool) (off : Offset) : Word :=
  (op ++ BitVec.ofBool i ++ BitVec.ofBool z ++ off).cast rfl

/-- An IOT word (R62): opcode 6, device code, operation bits. -/
def encodeIot (dev : BitVec 6) (ops : BitVec 3) : Word := (0o6#3 ++ dev ++ ops).cast rfl

/-- A Group-1 word (R63, R64): `IR[11:8]` is 0b1110. -/
def encodeGroup1 (g : Group1) : Word :=
  (0b1110#4 ++ BitVec.ofBool g.cla ++ BitVec.ofBool g.cll ++ BitVec.ofBool g.cma ++ BitVec.ofBool g.cml
    ++ BitVec.ofBool g.rar ++ BitVec.ofBool g.ral ++ BitVec.ofBool g.two ++ BitVec.ofBool g.iac).cast rfl

/-- A Group-2 word (R63, R65): `IR[11:8]` is 0b1111 and `IR[0]` is 0. -/
def encodeGroup2 (g : Group2) : Word :=
  (0b1111#4 ++ BitVec.ofBool g.cla ++ BitVec.ofBool g.sign ++ BitVec.ofBool g.zero ++ BitVec.ofBool g.link
    ++ BitVec.ofBool g.andFamily ++ BitVec.ofBool g.unused ++ BitVec.ofBool g.hlt ++ 0b0#1).cast rfl

/-- The encoder, from the same tables (R61 to R65, R69, R71). -/
def encode : Instr → Word
  | .and i z off => encodeMemRef 0#3 i z off
  | .tad i z off => encodeMemRef 1#3 i z off
  | .isz i z off => encodeMemRef 2#3 i z off
  | .dca i z off => encodeMemRef 3#3 i z off
  | .jms i z off => encodeMemRef 4#3 i z off
  | .jmp i z off => encodeMemRef 5#3 i z off
  | .iotReader ops => encodeIot 0o03#6 ops
  | .iotPunch skip clear send =>
    encodeIot 0o04#6 (BitVec.ofBool send ++ BitVec.ofBool clear ++ BitVec.ofBool skip)
  | .iotUnknown dev ops => encodeIot dev ops
  | .oprGroup1 g => encodeGroup1 g
  | .oprGroup2 g => encodeGroup2 g
  | .oprNeither bits => (0b1111#4 ++ bits ++ 0b1#1).cast rfl
  | .nop => 0o7000#12
  | .iac => 0o7001#12
  | .ral => 0o7004#12
  | .rtl => 0o7006#12
  | .rar => 0o7010#12
  | .rtr => 0o7012#12
  | .cml => 0o7020#12
  | .cma => 0o7040#12
  | .cll => 0o7100#12
  | .cla => 0o7200#12
  | .hlt => 0o7402#12
  | .skp => 0o7410#12
  | .snl => 0o7420#12
  | .szl => 0o7430#12
  | .sza => 0o7440#12
  | .sna => 0o7450#12
  | .sma => 0o7500#12
  | .spa => 0o7510#12
  | .claGroup2 => 0o7600#12
  | .oprGroup2NoBits => 0o7400#12

end Sys2Proof
end

