-- ==== Sys2Proof/Machine/Memory.lean ====
section
/-! DEFINITION. The memory M as plain data (10_state R27; 20_memory R40): 4096 cells of one 12-bit word each. The
smallest addressable unit is the word (R40, D33), so a cell holds a word and not bytes (log entry 4). -/

namespace Sys2Proof.Machine

/-- The memory: the cells that have a value, as (address, word) pairs with strictly rising addresses. A cell that is
not listed has no value (60_exceptions R274). -/
abbrev Memory := List (Nat × Word)

/-- The word listed for the address number `k`, if there is one. -/
def Memory.lookup : Memory → Nat → Option Word
  | [], _ => none
  | (k', v) :: m, k => if k = k' then some v else Memory.lookup m k

/-- Lists `v` for the address number `k`, at its place in the order, in the stead of what was listed there. -/
def Memory.insert : Memory → Nat → Word → Memory
  | [], k, v => [(k, v)]
  | (k', v') :: m, k, v =>
    if k < k' then (k, v) :: (k', v') :: m
    else if k = k' then (k, v) :: m
    else (k', v') :: Memory.insert m k v

/-- The word at `addr`: the model's one read of a cell (R41), `none` where the cell has no value. -/
def Memory.read (m : Memory) (addr : Word) : Option Word := Memory.lookup m addr.toNat

/-- The memory with `v` at `addr`: the model's one write of a cell (R42). -/
def Memory.write (m : Memory) (addr v : Word) : Memory := Memory.insert m addr.toNat v

/-- The canonical form: addresses strictly rise, and each is one of the 4096 (R5, R27). -/
abbrev Memory.wf (m : Memory) : Prop := (m.map Prod.fst).Pairwise (· < ·) ∧ ∀ c ∈ m, c.1 < 4096

end Sys2Proof.Machine
end

