-- ==== Sys2Proof/Machine/State.lean ====
section
/-! DEFINITION. The state of the machine (10_state R20 to R29), the reasons a step can stop, and the state right after
construction (70_reset_and_hazards R280). -/

namespace Sys2Proof.Machine

/-- An item of state that can lack a value (60_exceptions R274). -/
inductive Item where
  | ac
  | link
  | pc
  | pf
  /-- The memory cell at an address. -/
  | mem (addr : Word)
  deriving DecidableEq, Repr

/-- The record of a fatal CPU error (60_exceptions R261). `a` is the instruction address; it has no value only where
PC has none (R274). The cause codes stand in `ErrorRecord.code`. -/
inductive ErrorRecord where
  /-- An OPR word in neither group (R205). -/
  | decodeError (a : Option Word) (ir : Word) (pc : Option Word)
  /-- An IOT word whose device does not exist (R156). -/
  | unknownDeviceError (a : Option Word) (ir : Word) (dev : BitVec 6)
  /-- A step read an item that has no value (R274). -/
  | unwrittenRead (a : Option Word) (item : Item)
  deriving DecidableEq, Repr

/-- A tracer event (10_state R29). -/
inductive TraceEvent where
  /-- R107; AC, L and PC as they are, `none` for an item without a value (R274). -/
  | instructionExecuted (oldPC rawInstruction : Word) (ac : Option Word) (link : Option Bool) (newPC : Option Word)
  /-- R42. -/
  | memoryWrite (addr newValue : Word)
  /-- R203. -/
  | halt (pc : Word)
  deriving DecidableEq, Repr

/-- The state. AC, L, PC, PF and each memory cell either have a value or have none, as R274 and R280 say (log entry 3);
`State.reset` gives every register a value. -/
structure State where
  /-- R20: the accumulator. -/
  ac : Option Word
  /-- R21: the Link. -/
  link : Option Bool
  /-- R23: the program counter. -/
  pc : Option Word
  /-- R25: the instruction register. -/
  ir : Word
  /-- R24: the Running flag RUN. -/
  running : Bool
  /-- R26: the punch ready flag. -/
  pf : Option Bool
  /-- R27: the memory M. -/
  mem : Memory
  /-- R28: FAULT. -/
  fault : Option ErrorRecord
  /-- R29: TRACE, the oldest event first. -/
  trace : List TraceEvent
  /-- R29, R155: OUT, the words the punch has sent, the oldest first. -/
  out : List Word
  /-- R108, R109: the `stepping` argument of the run() call in progress (log entry 10). -/
  stepping : Bool
  /-- The model's own: how many values the undefined rotate has drawn from `Config.draw1` (R183; log entry 5). -/
  draws : Nat
  deriving DecidableEq, Repr

/-- Why a step has no next state. Neither is an error of the spec: a CPU error is itself a next state whose FAULT holds
the record (log entry 7). -/
inductive Fault where
  /-- Raised by `step` alone: RUN is false and FAULT is none, so the CPU has no step until the host's run() (R101).
  Safe: nothing is claimed to happen. -/
  | stopped
  /-- Raised by `step` alone: FAULT holds a record, so the machine is frozen and never steps again (R28, R101, R265).
  Safe: nothing is claimed to happen. -/
  | frozen
  deriving DecidableEq, Repr

/-- Why a command or an instruction is turned away. -/
inductive Refusal where
  /-- Raised by an arm of `exec` whose instruction has no meaning yet. Safe. No arm raises it now. -/
  | notModelled (mnemonic : String)
  /-- Raised by the host's run() when FAULT is set (R100, R265). Safe. -/
  | runOnFaultedMachine
  /-- Raised by the host's run() when the start address is above 4095 (R100, D36). Safe. -/
  | startOutOfRange
  /-- Raised by the host's store and load when the address is above 4095 (R57, D34). Safe. -/
  | hostAddressOutOfRange
  deriving DecidableEq, Repr

/-- The machine right after construction (R280): RUN is false, FAULT is none and both streams are empty, as the spec
says. The spec leaves AC, L, PC and PF to the launch parameter initialState, and this is the machine built with 0 for
each (DESIGN CHOICE, log entry 1); IR is 0 (DESIGN CHOICE, log entry 2); no memory cell has a value. -/
def State.reset : State :=
  { ac := some 0#12, link := some false, pc := some 0#12, ir := 0#12, running := false, pf := some false,
    mem := [], fault := none, trace := [], out := [], stepping := false, draws := 0 }

end Sys2Proof.Machine
end

