-- ==== Sys2Proof/Machine/Ops.lean ====
section
/-! DEFINITION. The named operations on the state: reads that raise UnwrittenRead (60_exceptions R274), writes, trace
and output events (10_state R29), the fatal stop (R264), the fetch with its PC advance (40_cycle R102, R104), and what
the step does when a handler has finished (R107, R108). -/

namespace Sys2Proof.Machine

/-- The value of an item, or the item that has none. -/
def readItem {α : Type} (value : Option α) (item : Item) : Except Item α :=
  match value with
  | some v => .ok v
  | none => .error item

/-- A read of AC (R20, R274). -/
def State.readAc (s : State) : Except Item Word := readItem s.ac .ac

/-- A read of L (R21, R274). -/
def State.readLink (s : State) : Except Item Bool := readItem s.link .link

/-- A read of PC (R23, R274). -/
def State.readPc (s : State) : Except Item Word := readItem s.pc .pc

/-- A read of PF (R26, R274). -/
def State.readPf (s : State) : Except Item Bool := readItem s.pf .pf

/-- MemRead (20_memory R41, R274). -/
def State.memRead (s : State) (addr : Word) : Except Item Word := readItem (s.mem.read addr) (.mem addr)

/-- A write of AC (R20). -/
def State.setAc (s : State) (v : Word) : State := { s with ac := some v }

/-- A write of L (R21). -/
def State.setLink (s : State) (b : Bool) : State := { s with link := some b }

/-- A write of PC (R23); a 12-bit target is already reduced mod 4096 (R104, D4). -/
def State.setPc (s : State) (target : Word) : State := { s with pc := some target }

/-- A write of PF (R26). -/
def State.setPf (s : State) (b : Bool) : State := { s with pf := some b }

/-- A write of RUN (R24). -/
def State.setRunning (s : State) (b : Bool) : State := { s with running := b }

/-- An event appended to TRACE (R29). -/
def State.emit (s : State) (e : TraceEvent) : State := { s with trace := s.trace ++ [e] }

/-- A word appended to OUT (R29, R155). -/
def State.punch (s : State) (v : Word) : State := { s with out := s.out ++ [v] }

/-- The cell alone, with no event: the host's store (20_memory R57, D19) and the first half of MemWrite. -/
def State.setMem (s : State) (addr v : Word) : State := { s with mem := s.mem.write addr v }

/-- MemWrite (R42): the cell, then its event. -/
def State.memWrite (s : State) (addr v : Word) : State := (s.setMem addr v).emit (.memoryWrite addr v)

/-- One more value drawn from `Config.draw1` (log entry 5). -/
def State.countDraw (s : State) : State := { s with draws := s.draws + 1 }

/-- Advancing PC by one extra word, mod 4096 (00_scope R15; 40_cycle R104). -/
def State.skip (s : State) : Except Item State := do
  let pc ← s.readPc
  return s.setPc (pc + 1#12)

/-- The instruction address `a` while a handler runs: the PC has been advanced to `(a + 1) mod 4096` (R23, R104; log
entry 11). -/
def State.instrAddr (s : State) : Option Word := s.pc.map (· - 1#12)

/-- The cause code of an error record (60_exceptions R261, D38). -/
def ErrorRecord.code : ErrorRecord → Nat
  | .decodeError _ _ _ => 1
  | .unknownDeviceError _ _ _ => 2
  | .unwrittenRead _ _ => 6

/-- The fatal stop, taken by every CPU error (40_cycle R110; 60_exceptions R264): FAULT holds the record, RUN is false,
nothing else changes. -/
def State.fatal (s : State) (e : ErrorRecord) : State := { s with fault := some e, running := false }

/-- How a handler that began in `s` ends: in the state it computed, or, where it read an item without a value, in the
fatal UnwrittenRead of the state it began in, which undoes its writes and events (R264, R274). -/
def State.conclude (s : State) (result : Except Item State) : Host.Outcome State Fault Refusal :=
  match result with
  | .ok t => .next t
  | .error item => .next (s.fatal (.unwrittenRead s.instrAddr item))

/-- Whether a step can be taken (R101). -/
def State.canStep (s : State) : Bool := s.running && s.fault.isNone

/-- The fetch and the PC advance (R102, R104), as the instruction address and the state a handler begins in. Where PC
or the word it names has no value, the fatal UnwrittenRead that keeps IR and PC as they were (R264, R267, R274). -/
def State.fetch (s : State) : Except State (Word × State) :=
  match s.pc with
  | none => .error (s.fatal (.unwrittenRead none .pc))
  | some a =>
    match s.mem.read a with
    | none => .error (s.fatal (.unwrittenRead (some a) (.mem a)))
    | some w => .ok (a, { s with ir := w, pc := some (a + 1#12) })

/-- The InstructionExecuted event of the instruction at `a`, emitted when the handler raised no fatal error (R107). -/
def State.emitExecuted (s : State) (a : Word) : State :=
  if s.fault.isNone then s.emit (.instructionExecuted a s.ir s.ac s.link s.pc) else s

/-- The loop's stop after one instruction when run() was called with `stepping` (R108, R109). -/
def State.endStepping (s : State) : State := if s.stepping then s.setRunning false else s

end Sys2Proof.Machine
end

