-- ==== Sys2Proof/Machine/Iot.lean ====
section
/-! DEFINITION. The IOT instruction and its two devices (43_iot R150 to R158). -/

namespace Sys2Proof.Machine

/-- Punch operation bit 0 (R153): skip if the punch is ready; whether the skip clears the flag is the open parameter.
PF is read only where the bit is set (60_exceptions R274). -/
def punchSkip (enabled : Bool) (s : State) : Except Item State :=
  if enabled then do
    let ready ← s.readPf
    if ready then do
      let t ← s.skip
      return if Config.punchSkipClearsFlag then t.setPf false else t
    else return s
  else return s

/-- Punch operation bit 1 (R154): clear the ready flag. -/
def punchClear (enabled : Bool) (s : State) : State := if enabled then s.setPf false else s

/-- Punch operation bit 2 (R155): send the whole of AC unless it is zero, and set the ready flag either way. AC is read
only where the bit is set (60_exceptions R274). -/
def punchSend (enabled : Bool) (s : State) : Except Item State :=
  if enabled then do
    let ac ← s.readAc
    return (if ac = 0#12 then s else s.punch ac).setPf true
  else return s

/-- IOT to device 3, the reader stub (R151): no effect. -/
def execIotReader (_ops : BitVec 3) (s : State) : Host.Outcome State Fault Refusal := .next s

/-- IOT to device 4, the punch (R152, R157): bit 0, then bit 1, then bit 2, each seeing what the one before left. -/
def execIotPunch (skip clear send : Bool) (s : State) : Host.Outcome State Fault Refusal :=
  s.conclude do
    let t ← punchSkip skip s
    punchSend send (punchClear clear t)

/-- IOT to any other device (R156): the fatal UnknownDeviceError, before any operation bit acts. -/
def execIotUnknown (dev : BitVec 6) (_ops : BitVec 3) (s : State) : Host.Outcome State Fault Refusal :=
  .next (s.fatal (.unknownDeviceError s.instrAddr s.ir dev))

end Sys2Proof.Machine
end

