-- ==== Sys2Proof/Machine/Flags.lean ====
section
/-! DEFINITION. The computations on AC and L: the addition with carry (42_memory_reference R130), the rotates of the
13-bit L:AC (44_operate_group1 R177 to R180), and the Group-2 skip tests (45_operate_group2 R192, R193). -/

namespace Sys2Proof.Machine

/-- Add12 (R130): the exact sum, kept to 12 bits, and whether that changed it. -/
def add12 (x y : Word) : Word × Bool :=
  let exact := x.toNat + y.toNat
  let sum := BitVec.ofNat 12 exact
  (sum, sum.toNat != exact)

/-- L as a word of value 0 or 1, for the rotates' arithmetic (R12). -/
def linkBit (l : Bool) : Word := if l then 1#12 else 0#12

/-- The 13-bit extended register L:AC, a view of the two registers (10_state R22). -/
def extended (ac : Word) (l : Bool) : BitVec 13 := BitVec.ofBool l ++ ac

/-- One place to the right: the new AC and the new L (R177). -/
def rotateRight (ac : Word) (l : Bool) : Word × Bool :=
  ((linkBit l <<< 11) ||| (ac >>> 1), ac.getLsbD 0)

/-- One place to the left: the new AC and the new L (R178). -/
def rotateLeft (ac : Word) (l : Bool) : Word × Bool :=
  ((ac <<< 1) ||| linkBit l, ac.getLsbD 11)

/-- A word read as negative in two's complement (R12): `AC[11] = 1`. -/
def isNegative (ac : Word) : Bool := ac.getLsbD 11

/-- One condition of a skip test: tested, and so read, only where its enable bit is set (R274); otherwise `idle`, the
value that leaves the family's OR or AND as it is. -/
def condition (enabled : Bool) (test : Except Item Bool) (idle : Bool) : Except Item Bool :=
  if enabled then test else .ok idle

/-- The OR family (R192): skip if any enabled condition of AC negative, AC zero, L set holds. Every enabled condition
is read (log entry 13). -/
def State.orFamilySkip (s : State) (g : Group2) : Except Item Bool := do
  let minus ← condition g.sign (do return isNegative (← s.readAc)) false
  let zero ← condition g.zero (do return (← s.readAc) == 0#12) false
  let set ← condition g.link s.readLink false
  return minus || zero || set

/-- The AND family (R193): skip if every enabled condition of AC positive, AC nonzero, L clear holds; with none
enabled it always skips. -/
def State.andFamilySkip (s : State) (g : Group2) : Except Item Bool := do
  let plus ← condition g.sign (do return !isNegative (← s.readAc)) true
  let nonzero ← condition g.zero (do return (← s.readAc) != 0#12) true
  let clear ← condition g.link (do return !(← s.readLink)) true
  return plus && nonzero && clear

/-- The skip test of a Group-2 word; `IR[3]` selects the family (R190). -/
def State.skipTest (s : State) (g : Group2) : Except Item Bool :=
  if g.andFamily then s.andFamilySkip g else s.orFamilySkip g

end Sys2Proof.Machine
end

