-- ==== Sys2Proof/Machine/Operands.lean ====
section
/-! DEFINITION. Effective-address resolution, the one operand form of the memory-reference instructions
(41_address_resolution R120 to R127), and the page arithmetic it uses (20_memory R49). -/

namespace Sys2Proof.Machine

/-- The page base of an address (R6, R49). -/
def pageBase (a : Word) : Word := a &&& 0o7600#12

/-- The page number of an address (R49). -/
def pageNumber (a : Word) : BitVec 5 := a.extractLsb' 7 5

/-- The place of an address in its page (R49). -/
def pageOffset (a : Word) : Offset := a.extractLsb' 0 7

/-- The intermediate address (R121, R122): the offset on page zero, or on the page of the instruction address `a`. -/
def intermediateAddress (z : Bool) (off : Offset) (a : Word) : Word :=
  if z then off.setWidth 12 else pageBase a ||| off.setWidth 12

/-- The intermediate address in a state; only the current-page form uses the instruction address (R121, R122). -/
def State.baseAddress (s : State) (z : Bool) (off : Offset) : Except Item Word :=
  if z then .ok (intermediateAddress true off 0#12)
  else do
    let a ← readItem s.instrAddr .pc
    return intermediateAddress false off a

/-- The resolver (R125): the intermediate address, or the word it holds when I is set, one level only. -/
def State.resolve (s : State) (i z : Bool) (off : Offset) : Except Item Word := do
  let base ← s.baseAddress z off
  if i then s.memRead base else return base

end Sys2Proof.Machine
end

