-- ==== Sys2Proof/Machine/MemoryReference.lean ====
section
/-! DEFINITION. The six memory-reference instructions (42_memory_reference R131 to R136). Each begins in the state
after the fetch, with PC already advanced, and resolves its effective address once, first (40_cycle R106). -/

namespace Sys2Proof.Machine

/-- AND (R131). -/
def execAnd (i z : Bool) (off : Offset) (s : State) : Host.Outcome State Fault Refusal :=
  s.conclude do
    let ea ← s.resolve i z off
    let ac ← s.readAc
    let operand ← s.memRead ea
    return s.setAc (ac &&& operand)

/-- TAD (R132): L is overwritten with the carry, and not read. -/
def execTad (i z : Bool) (off : Offset) (s : State) : Host.Outcome State Fault Refusal :=
  s.conclude do
    let ea ← s.resolve i z off
    let ac ← s.readAc
    let operand ← s.memRead ea
    let (sum, carry) := add12 ac operand
    return (s.setAc sum).setLink carry

/-- ISZ (R133): the write always happens; the skip follows when the new word is zero. -/
def execIsz (i z : Bool) (off : Offset) (s : State) : Host.Outcome State Fault Refusal :=
  s.conclude do
    let ea ← s.resolve i z off
    let operand ← s.memRead ea
    let v := operand + 1#12
    if v = 0#12 then (s.memWrite ea v).skip else return s.memWrite ea v

/-- DCA (R134). -/
def execDca (i z : Bool) (off : Offset) (s : State) : Host.Outcome State Fault Refusal :=
  s.conclude do
    let ea ← s.resolve i z off
    let ac ← s.readAc
    return (s.memWrite ea ac).setAc 0#12

/-- JMS (R135): the stored return address is the already advanced PC. -/
def execJms (i z : Bool) (off : Offset) (s : State) : Host.Outcome State Fault Refusal :=
  s.conclude do
    let ea ← s.resolve i z off
    let pc ← s.readPc
    return (s.memWrite ea pc).setPc (ea + 1#12)

/-- JMP (R136). -/
def execJmp (i z : Bool) (off : Offset) (s : State) : Host.Outcome State Fault Refusal :=
  s.conclude do
    let ea ← s.resolve i z off
    return s.setPc ea

end Sys2Proof.Machine
end

