-- ==== Sys2Proof/Machine/OperateGroup1.lean ====
section
/-! DEFINITION. Operate Group 1 (44_operate_group1 R170 to R186): the micro-operations, the sequencer that runs any
combination of them in the fixed order, and the words that have a name of their own. -/

namespace Sys2Proof.Machine

/-- CLA (R172). -/
def microCla (s : State) : Except Item State := .ok (s.setAc 0#12)

/-- CLL (R173). -/
def microCll (s : State) : Except Item State := .ok (s.setLink false)

/-- CMA (R174). -/
def microCma (s : State) : Except Item State := do
  let ac ← s.readAc
  return s.setAc (~~~ac)

/-- CML (R175). -/
def microCml (s : State) : Except Item State := do
  let l ← s.readLink
  return s.setLink (!l)

/-- IAC (R176): L is overwritten with the carry, and not read. -/
def microIac (s : State) : Except Item State := do
  let ac ← s.readAc
  let (sum, carry) := add12 ac 1#12
  return (s.setAc sum).setLink carry

/-- One rotate to the right (R177). -/
def microRar (s : State) : Except Item State := do
  let l ← s.readLink
  let ac ← s.readAc
  let (ac', l') := rotateRight ac l
  return (s.setAc ac').setLink l'

/-- One rotate to the left (R178). -/
def microRal (s : State) : Except Item State := do
  let ac ← s.readAc
  let l ← s.readLink
  let (ac', l') := rotateLeft ac l
  return (s.setAc ac').setLink l'

/-- Both rotates at once (R183): AC and L are a draw that nothing constrains (log entry 5). -/
def microDraw (s : State) : Except Item State := do
  let ac ← s.readAc
  let l ← s.readLink
  let (ac', l') := Config.draw1 s.draws ac l
  return ((s.setAc ac').setLink l').countDraw

/-- A micro-operation that its bit enables. -/
def microIf (enabled : Bool) (op : State → Except Item State) (s : State) : Except Item State :=
  if enabled then op s else .ok s

/-- A micro-operation done once, or twice in immediate succession (R179, R180). -/
def microRepeat (two : Bool) (op : State → Except Item State) (s : State) : Except Item State :=
  if two then do op (← op s) else op s

/-- Sequence 4 (R171, R182, R183, R184): without a rotate the mode bit does nothing. -/
def microRotate (g : Group1) (s : State) : Except Item State :=
  match g.rar, g.ral with
  | false, false => .ok s
  | true, false => microRepeat g.two microRar s
  | false, true => microRepeat g.two microRal s
  | true, true => microDraw s

/-- The Group-1 sequencer (R171, R184). -/
def group1Sequence (g : Group1) (s : State) : Except Item State := do
  let s1 ← microIf g.cla microCla s
  let s2 ← microIf g.cll microCll s1
  let s3 ← microIf g.cma microCma s2
  let s4 ← microIf g.cml microCml s3
  let s5 ← microIf g.iac microIac s4
  microRotate g s5

/-- Any combination of Group-1 bits (R184). -/
def execOprGroup1 (g : Group1) (s : State) : Host.Outcome State Fault Refusal := s.conclude (group1Sequence g s)

/-- NOP (R181): only the PC advance of the fetch. -/
def execNop (s : State) : Host.Outcome State Fault Refusal := .next s

/-- IAC alone (R176). -/
def execIac (s : State) : Host.Outcome State Fault Refusal := s.conclude (microIac s)

/-- RAL alone (R178). -/
def execRal (s : State) : Host.Outcome State Fault Refusal := s.conclude (microRal s)

/-- RTL (R180). -/
def execRtl (s : State) : Host.Outcome State Fault Refusal := s.conclude (microRepeat true microRal s)

/-- RAR alone (R177). -/
def execRar (s : State) : Host.Outcome State Fault Refusal := s.conclude (microRar s)

/-- RTR (R179). -/
def execRtr (s : State) : Host.Outcome State Fault Refusal := s.conclude (microRepeat true microRar s)

/-- CML alone (R175). -/
def execCml (s : State) : Host.Outcome State Fault Refusal := s.conclude (microCml s)

/-- CMA alone (R174). -/
def execCma (s : State) : Host.Outcome State Fault Refusal := s.conclude (microCma s)

/-- CLL alone (R173). -/
def execCll (s : State) : Host.Outcome State Fault Refusal := s.conclude (microCll s)

/-- CLA alone (R172). -/
def execCla (s : State) : Host.Outcome State Fault Refusal := s.conclude (microCla s)

end Sys2Proof.Machine
end

