-- ==== Sys2Proof/Machine/OperateGroup2.lean ====
section
/-! DEFINITION. Operate Group 2 (45_operate_group2 R190 to R204, R206): the skip tests, the clear and the halt, the
sequencer that runs any combination of them, and the words that have a name of their own; and the OPR words in neither
group (R205). -/

namespace Sys2Proof.Machine

/-- The skip, when the test said so (R206). -/
def skipIf (c : Bool) (s : State) : Except Item State := if c then s.skip else .ok s

/-- CLA of Group 2 (R202). -/
def clearIf (c : Bool) (s : State) : State := if c then s.setAc 0#12 else s

/-- HLT (R203), the last action of its instruction: the Halt event with the PC after any skip, then RUN is false. -/
def microHlt (s : State) : Except Item State := do
  let pc ← s.readPc
  return (s.emit (.halt pc)).setRunning false

/-- The Group-2 sequencer (R191, R206): test, skip, clear, halt; `IR[2]` does nothing (R204). -/
def group2Sequence (g : Group2) (s : State) : Except Item State := do
  let c ← s.skipTest g
  let t ← skipIf c s
  let u := clearIf g.cla t
  if g.hlt then microHlt u else return u

/-- A skip test alone: the condition, then the skip. -/
def skipOn (test : Except Item Bool) (s : State) : Except Item State := do
  let c ← test
  skipIf c s

/-- Any combination of Group-2 bits (R206). -/
def execOprGroup2 (g : Group2) (s : State) : Host.Outcome State Fault Refusal := s.conclude (group2Sequence g s)

/-- HLT alone (R203). -/
def execHlt (s : State) : Host.Outcome State Fault Refusal := s.conclude (microHlt s)

/-- SKP (R200): skip unconditionally. -/
def execSkp (s : State) : Host.Outcome State Fault Refusal := s.conclude s.skip

/-- SNL (R196): skip if L is 1. -/
def execSnl (s : State) : Host.Outcome State Fault Refusal := s.conclude (skipOn s.readLink s)

/-- SZL (R199): skip if L is 0. -/
def execSzl (s : State) : Host.Outcome State Fault Refusal :=
  s.conclude (skipOn (do return !(← s.readLink)) s)

/-- SZA (R195): skip if AC is 0. -/
def execSza (s : State) : Host.Outcome State Fault Refusal :=
  s.conclude (skipOn (do return (← s.readAc) == 0#12) s)

/-- SNA (R198): skip if AC is not 0. -/
def execSna (s : State) : Host.Outcome State Fault Refusal :=
  s.conclude (skipOn (do return (← s.readAc) != 0#12) s)

/-- SMA (R194): skip if AC is negative. -/
def execSma (s : State) : Host.Outcome State Fault Refusal :=
  s.conclude (skipOn (do return isNegative (← s.readAc)) s)

/-- SPA (R197): skip if AC is positive, zero included. -/
def execSpa (s : State) : Host.Outcome State Fault Refusal :=
  s.conclude (skipOn (do return !isNegative (← s.readAc)) s)

/-- CLA of Group 2 alone (R202). -/
def execClaGroup2 (s : State) : Host.Outcome State Fault Refusal := .next (clearIf true s)

/-- The Group-2 word with no bits set (R201): the OR family with no condition never skips. -/
def execOprGroup2NoBits (s : State) : Host.Outcome State Fault Refusal := .next s

/-- An OPR word in neither group (R205): the fatal DecodeError, with no micro-operation executed. -/
def execOprNeither (_bits : BitVec 7) (s : State) : Host.Outcome State Fault Refusal :=
  .next (s.fatal (.decodeError s.instrAddr s.ir s.pc))

end Sys2Proof.Machine
end

