-- ==== Sys2Proof/Machine/Dispatch.lean ====
section
/-! DEFINITION. The dispatch (40_cycle R105): each instruction's arm calls its meaning. The state is the one after the
fetch and the PC advance (R102, R104). -/

namespace Sys2Proof.Machine

open Sys2Proof

def exec (i : Instr) (s : State) : Host.Outcome State Fault Refusal :=
  match i with
  | .and ind z off => Sys2Proof.Machine.execAnd ind z off s
  | .tad ind z off => Sys2Proof.Machine.execTad ind z off s
  | .isz ind z off => Sys2Proof.Machine.execIsz ind z off s
  | .dca ind z off => Sys2Proof.Machine.execDca ind z off s
  | .jms ind z off => Sys2Proof.Machine.execJms ind z off s
  | .jmp ind z off => Sys2Proof.Machine.execJmp ind z off s
  | .iotReader ops => Sys2Proof.Machine.execIotReader ops s
  | .iotPunch skip clear send => Sys2Proof.Machine.execIotPunch skip clear send s
  | .iotUnknown dev ops => Sys2Proof.Machine.execIotUnknown dev ops s
  | .oprGroup1 g => Sys2Proof.Machine.execOprGroup1 g s
  | .oprGroup2 g => Sys2Proof.Machine.execOprGroup2 g s
  | .oprNeither bits => Sys2Proof.Machine.execOprNeither bits s
  | .nop => Sys2Proof.Machine.execNop s
  | .iac => Sys2Proof.Machine.execIac s
  | .ral => Sys2Proof.Machine.execRal s
  | .rtl => Sys2Proof.Machine.execRtl s
  | .rar => Sys2Proof.Machine.execRar s
  | .rtr => Sys2Proof.Machine.execRtr s
  | .cml => Sys2Proof.Machine.execCml s
  | .cma => Sys2Proof.Machine.execCma s
  | .cll => Sys2Proof.Machine.execCll s
  | .cla => Sys2Proof.Machine.execCla s
  | .hlt => Sys2Proof.Machine.execHlt s
  | .skp => Sys2Proof.Machine.execSkp s
  | .snl => Sys2Proof.Machine.execSnl s
  | .szl => Sys2Proof.Machine.execSzl s
  | .sza => Sys2Proof.Machine.execSza s
  | .sna => Sys2Proof.Machine.execSna s
  | .sma => Sys2Proof.Machine.execSma s
  | .spa => Sys2Proof.Machine.execSpa s
  | .claGroup2 => Sys2Proof.Machine.execClaGroup2 s
  | .oprGroup2NoBits => Sys2Proof.Machine.execOprGroup2NoBits s

end Sys2Proof.Machine
end

