-- ==== Sys2Proof/Machine/Step.lean ====
section
/-! DEFINITION. One step (40_cycle R101, R114) and the placing of an instruction where the next step fetches it. -/

namespace Sys2Proof.Machine

/-- One step: the fetch, the dispatch on the decoded word, the InstructionExecuted event unless the handler raised a
fatal error, and the stop of a stepped run, which R109's loop does (R101 to R109, R114; log entry 10). In a state where RUN is false or FAULT is set the CPU
has no step. -/
def step (s : State) : Host.Outcome State Fault Refusal :=
  if s.fault.isSome then .fault .frozen
  else if s.running = false then .fault .stopped
  else
    match s.fetch with
    | .error t => .next t.endStepping
    | .ok (a, t) =>
      match exec (decode t.ir) t with
      | .next u => .next (u.emitExecuted a).endStepping
      | .fault r => .fault r
      | .refused r => .refused r

/-- `s` with the instruction of the opcode table whose bits are `w` stored at the word PC names, and running: it stands
for the host's load and its run() (R58, R100; log entry 9). Where PC has no value it is 0. -/
def State.withFetchWord (s : State) (nbits w : Nat) : State :=
  { s with
    pc := some (s.pc.getD 0#12)
    mem := s.mem.write (s.pc.getD 0#12) ((tableWord nbits w).getD 0#12)
    running := true
    fault := none }

end Sys2Proof.Machine
end

