-- ==== Sys2Proof/Machine/Assembler.lean ====
section
/-! DEFINITION. The two-pass assembler (46_assembler R210 to R232), a pure function from source lines to an image and a
symbol table. It shares no state with the machine (R210; 10_state R32). A line is its list of characters. -/

namespace Sys2Proof.Machine

/-- A source line as written. -/
abbrev Line := List Char

/-- A label's or a mnemonic's name; names are case-sensitive (R212). -/
abbrev SymName := List Char

/-- The symbol table SYM (R32): each name once, in the order of first definition. -/
abbrev SymTab := List (SymName × Word)

/-- The assembler's errors (60_exceptions R261). The line text is the line as written, comment included (R228; log
entry 20). -/
inductive AsmError where
  /-- R228: a line that matches no shape. -/
  | syntaxError (text : Line)
  /-- R225: an identifier that no label defines, evaluated in pass 2. -/
  | undefinedSymbolError (name : SymName) (text : Line)
  /-- R227: a target off the line's page and not below 0o200, without Z. -/
  | pageFaultError (text : Line)
  deriving DecidableEq, Repr

/-- A term of an offset expression (R213). -/
inductive Term where
  /-- `.`, the instruction counter of the line. -/
  | here
  | numeral (v : Word)
  | symbol (name : SymName)
  deriving DecidableEq, Repr

/-- An offset expression (R213): one term, or two with an operator. -/
inductive OffsetExpr where
  | single (t : Term)
  | sum (t1 t2 : Term)
  | difference (t1 t2 : Term)
  deriving DecidableEq, Repr

/-- The five line shapes (R214), without their label. -/
inductive Shape where
  /-- R215: the base value of the mnemonic, the I and Z tokens, the expression. -/
  | memRef (base : Word) (i z : Bool) (e : OffsetExpr)
  /-- R216: the values of the listed mnemonics, in the chosen table. -/
  | operate (values : List Word)
  /-- R217. -/
  | org (n : Word)
  /-- R218. -/
  | constant (n : Word)
  /-- R219: the bare label line. -/
  | reserve
  deriving DecidableEq, Repr

/-- A prepared and classified line. -/
structure Stmt where
  /-- The line as written, for the errors of pass 2. -/
  text : Line
  label : Option SymName
  shape : Shape
  deriving DecidableEq, Repr

/-- The state of pass 1 (10_state R32): the instruction counter and the symbol table. -/
structure PassState where
  ic : Word
  sym : SymTab
  deriving DecidableEq, Repr

/-- The code buffer IMG (R32, R229): 4096 words, of which those that no line planted are 0. -/
structure Image where
  /-- The planted words, in the form of `Memory`. -/
  planted : Memory
  deriving DecidableEq, Repr

/-- The word of an image at an address (R229, D29). -/
def Image.word (img : Image) (addr : Word) : Word := (img.planted.read addr).getD 0#12

/-- A word planted at an address; a later plant replaces an earlier one (R221). -/
def Image.plant (img : Image) (addr v : Word) : Image := { planted := img.planted.write addr v }

/-- The cause code of an assembler error (60_exceptions R261, D38). -/
def AsmError.code : AsmError → Nat
  | .syntaxError _ => 3
  | .undefinedSymbolError _ _ => 4
  | .pageFaultError _ => 5

/-! ### The mnemonic tables (30_encoding R71) -/

/-- The memory-reference mnemonics and their base values. -/
def memRefTable : List (SymName × Word) :=
  [(['A', 'N', 'D'], 0o0000#12), (['T', 'A', 'D'], 0o1000#12), (['I', 'S', 'Z'], 0o2000#12),
   (['D', 'C', 'A'], 0o3000#12), (['J', 'M', 'S'], 0o4000#12), (['J', 'M', 'P'], 0o5000#12)]

/-- The Group-1 mnemonics. -/
def group1Table : List (SymName × Word) :=
  [(['N', 'O', 'P'], 0o7000#12), (['I', 'A', 'C'], 0o7001#12), (['R', 'A', 'L'], 0o7004#12),
   (['R', 'T', 'L'], 0o7006#12), (['R', 'A', 'R'], 0o7010#12), (['R', 'T', 'R'], 0o7012#12),
   (['C', 'M', 'L'], 0o7020#12), (['C', 'M', 'A'], 0o7040#12), (['C', 'L', 'L'], 0o7100#12),
   (['C', 'L', 'A'], 0o7200#12)]

/-- The Group-2 mnemonics. -/
def group2Table : List (SymName × Word) :=
  [(['H', 'L', 'T'], 0o7402#12), (['S', 'K', 'P'], 0o7410#12), (['S', 'N', 'L'], 0o7420#12),
   (['S', 'Z', 'L'], 0o7430#12), (['S', 'Z', 'A'], 0o7440#12), (['S', 'N', 'A'], 0o7450#12),
   (['S', 'M', 'A'], 0o7500#12), (['S', 'P', 'A'], 0o7510#12), (['C', 'L', 'A'], 0o7600#12)]

/-- The value of a name in a table. -/
def tableValue (table : List (SymName × Word)) (name : SymName) : Option Word :=
  (table.find? (fun entry => entry.1 == name)).map Prod.snd

/-- Whether a table lists a name. -/
def inTable (table : List (SymName × Word)) (name : SymName) : Bool := (tableValue table name).isSome

/-- The names a label may not have (R212). -/
def reservedName (name : SymName) : Bool :=
  name == ['I'] || name == ['Z'] || inTable memRefTable name || inTable group1Table name || inTable group2Table name

/-! ### Lexical rules (R211, R212) -/

/-- Whitespace is spaces and tabs (R212). -/
def isBlank (c : Char) : Bool := c == ' ' || c == '\t'

/-- A letter of `[A-Za-z]` (R212). -/
def isLetter (c : Char) : Bool := c.isAlpha

/-- A digit of an octal numeral (R212, D20). -/
def isOctalDigit (c : Char) : Bool := '0' ≤ c && c ≤ '7'

/-- A character of `[A-Za-z0-9]` (R212). -/
def isNameChar (c : Char) : Bool := c.isAlphanum

/-- A line without its leading blanks. -/
def dropBlanks (l : Line) : Line := l.dropWhile isBlank

/-- A line prepared for parsing (R211): comment removed, then blanks at both ends. -/
def prepareLine (l : Line) : Line := (dropBlanks (dropBlanks (l.takeWhile (· != '/'))).reverse).reverse

/-- The tokens of a line: its parts between runs of blanks (R212); `current` holds the open token, last character
first. -/
def tokensFrom (current : List Char) : Line → List (List Char)
  | [] => if current = [] then [] else [current.reverse]
  | c :: rest =>
    if isBlank c then
      if current = [] then tokensFrom [] rest else current.reverse :: tokensFrom [] rest
    else tokensFrom (c :: current) rest

/-- The tokens of a line (R212). -/
def tokens (l : Line) : List (List Char) := tokensFrom [] l

/-- A numeral (R212): octal digits alone. -/
def isNumeral (t : List Char) : Bool := !t.isEmpty && t.all isOctalDigit

/-- A numeral's value, read in radix 8 and taken mod 4096 (R212, D28). -/
def numeralValue (t : List Char) : Word := BitVec.ofNat 12 (t.foldl (fun v c => 8 * v + (c.toNat - '0'.toNat)) 0)

/-- An identifier (R212): a letter, then letters and digits; a token that holds 8 or 9 is none (log entry 19). -/
def isIdentifier (t : List Char) : Bool :=
  match t with
  | [] => false
  | c :: _ => isLetter c && t.all (fun d => isLetter d || isOctalDigit d)

/-- The label at the start of a prepared line, with what follows its comma (R212). -/
def takeLabel (l : Line) : Option (SymName × Line) :=
  let name := l.takeWhile isNameChar
  match l.dropWhile isNameChar with
  | ',' :: rest => if isIdentifier name && !reservedName name then some (name, rest) else none
  | _ => none

/-! ### Line shapes (R213 to R219) -/

/-- A second term (R213): a numeral or an identifier, as long as it goes, and what follows it. -/
def parseTerm2 (l : Line) : Option (Term × Line) :=
  let t := l.takeWhile isNameChar
  let rest := l.dropWhile isNameChar
  if isNumeral t then some (.numeral (numeralValue t), rest)
  else if isIdentifier t then some (.symbol t, rest)
  else none

/-- A first term (R213): also `.`. -/
def parseTerm1 (l : Line) : Option (Term × Line) :=
  match l with
  | '.' :: rest => some (.here, rest)
  | _ => parseTerm2 l

/-- The second operand, which must end the line. -/
def parseOperand (l : Line) : Option Term :=
  match parseTerm2 (dropBlanks l) with
  | some (t, []) => some t
  | _ => none

/-- An offset expression (R213), which must be the whole of `l`. -/
def parseExpr (l : Line) : Option OffsetExpr :=
  match parseTerm1 l with
  | none => none
  | some (t1, rest) =>
    match dropBlanks rest with
    | [] => some (.single t1)
    | '+' :: r => (parseOperand r).map (.sum t1)
    | '-' :: r => (parseOperand r).map (.difference t1)
    | _ => none

/-- Tokens joined by single spaces (R213). -/
def joinTokens : List (List Char) → Line
  | [] => []
  | [t] => t
  | t :: ts => t ++ ' ' :: joinTokens ts

/-- Whether a token is the flag `c`, and the tokens after it. -/
def takeFlag (c : Char) (ts : List (List Char)) : Bool × List (List Char) :=
  match ts with
  | t :: rest => if t = [c] then (true, rest) else (false, ts)
  | [] => (false, [])

/-- The expression after the flags; a further I or Z token is a flag out of place (R215; log entry 18). -/
def parseOffset (ts : List (List Char)) : Option OffsetExpr :=
  match ts with
  | [] => none
  | t :: _ => if t = ['I'] || t = ['Z'] then none else parseExpr (joinTokens ts)

/-- The memory-reference shape (R215). -/
def memRefShape (ts : List (List Char)) : Option Shape :=
  match ts with
  | [] => none
  | m :: rest =>
    match tableValue memRefTable m with
    | none => none
    | some base =>
      let (i, afterI) := takeFlag 'I' rest
      let (z, afterZ) := takeFlag 'Z' afterI
      (parseOffset afterZ).map (.memRef base i z)

/-- The operate shape (R216): the first mnemonic chooses the table, Group 1 before Group 2. -/
def operateShape (ts : List (List Char)) : Option Shape :=
  match ts with
  | [] => none
  | m :: _ =>
    let table := if inTable group1Table m then group1Table else group2Table
    (ts.mapM (tableValue table)).map .operate

/-- The org shape (R217): one token, `*` and a numeral. -/
def orgShape (ts : List (List Char)) : Option Shape :=
  match ts with
  | ['*' :: n] => if isNumeral n then some (.org (numeralValue n)) else none
  | _ => none

/-- The constant shape (R218): one numeral token. -/
def constantShape (ts : List (List Char)) : Option Shape :=
  match ts with
  | [n] => if isNumeral n then some (.constant (numeralValue n)) else none
  | _ => none

/-- The shape of a line with a label (R215, R216, R219). -/
def labelledShape (ts : List (List Char)) : Option Shape :=
  if ts = [] then some .reserve else (memRefShape ts).orElse fun _ => operateShape ts

/-- The shape of a line without a label, in R214's order. -/
def plainShape (ts : List (List Char)) : Option Shape :=
  (memRefShape ts).orElse fun _ => (operateShape ts).orElse fun _ => (orgShape ts).orElse fun _ => constantShape ts

/-- A prepared line classified (R214): its label and its shape. -/
def classify (l : Line) : Option (Option SymName × Shape) :=
  match takeLabel l with
  | some (name, rest) => (labelledShape (tokens rest)).map (some name, ·)
  | none => (plainShape (tokens l)).map (none, ·)

/-- The lines that are not ignored (R211), classified in order; the first that matches no shape is the error (R220,
R226). -/
def parseSource : List Line → Except AsmError (List Stmt)
  | [] => .ok []
  | l :: ls =>
    if prepareLine l = [] then parseSource ls
    else
      match classify (prepareLine l) with
      | none => .error (.syntaxError l)
      | some (label, shape) => do return { text := l, label := label, shape := shape } :: (← parseSource ls)

/-! ### The passes (R220 to R223) -/

/-- The value of a name in SYM. -/
def SymTab.value (sym : SymTab) (name : SymName) : Option Word := tableValue sym name

/-- A definition in SYM; a redefinition replaces the value (R220; log entry 22). -/
def SymTab.define : SymTab → SymName → Word → SymTab
  | [], name, v => [(name, v)]
  | (n, w) :: sym, name, v => if n = name then (n, v) :: sym else (n, w) :: SymTab.define sym name v

/-- One line of pass 1 (R220). -/
def pass1Line (p : PassState) (st : Stmt) : PassState :=
  match st.shape with
  | .org n => { p with ic := n }
  | _ =>
    { ic := p.ic + 1#12
      sym := match st.label with
        | some name => SymTab.define p.sym name p.ic
        | none => p.sym }

/-- Pass 1 (R220). -/
def pass1 (stmts : List Stmt) : PassState := stmts.foldl pass1Line { ic := 0#12, sym := [] }

/-- A term's value (R213). -/
def evalTerm (sym : SymTab) (ic : Word) (text : Line) : Term → Except AsmError Word
  | .here => .ok ic
  | .numeral v => .ok v
  | .symbol name =>
    match SymTab.value sym name with
    | some v => .ok v
    | none => .error (.undefinedSymbolError name text)

/-- An expression's value, mod 4096 (R213, D28). The first term is evaluated first, so where both are undefined the error
names the first (DESIGN CHOICE: R213 gives no order; log entry 26). -/
def evalExpr (sym : SymTab) (ic : Word) (text : Line) : OffsetExpr → Except AsmError Word
  | .single t => evalTerm sym ic text t
  | .sum t1 t2 => do
    let v1 ← evalTerm sym ic text t1
    let v2 ← evalTerm sym ic text t2
    return v1 + v2
  | .difference t1 t2 => do
    let v1 ← evalTerm sym ic text t1
    let v2 ← evalTerm sym ic text t2
    return v1 - v2

/-- The memory-reference word for the target `v` at `ic` (R222): an explicit Z masks, then the own page, then page
zero by itself, else the page fault. -/
def memRefWord (base : Word) (i z : Bool) (v ic : Word) (text : Line) : Except AsmError Word :=
  let w := base ||| (if i then 0o400#12 else 0#12)
  if z then .ok (w ||| 0o200#12 ||| (v &&& 0o177#12))
  else if v &&& 0o7600#12 = ic &&& 0o7600#12 then .ok (w ||| (v &&& 0o177#12))
  else if v.toNat < 0o200 then .ok (w ||| 0o200#12 ||| v)
  else .error (.pageFaultError text)

/-- The operate word (R223): the OR of the listed values. -/
def operateWord (values : List Word) : Word := values.foldr (· ||| ·) 0#12

/-- The word a line plants at `ic`, or none for org (R221). -/
def plantedWord (sym : SymTab) (ic : Word) (st : Stmt) : Except AsmError (Option Word) :=
  match st.shape with
  | .memRef base i z e => do
    let v ← evalExpr sym ic st.text e
    return some (← memRefWord base i z v ic st.text)
  | .operate values => .ok (some (operateWord values))
  | .org _ => .ok none
  | .constant n => .ok (some n)
  | .reserve => .ok (some 0#12)

/-- The instruction counter after a line: org sets it, every other line advances it mod 4096 (R220, R221). -/
def nextIc (ic : Word) (st : Stmt) : Word :=
  match st.shape with
  | .org n => n
  | _ => ic + 1#12

/-- Pass 2 (R221) from `ic` and the image so far: the first line that fails decides the error (R226). -/
def pass2 (sym : SymTab) : Word → Image → List Stmt → Except AsmError Image
  | _, img, [] => .ok img
  | ic, img, st :: rest => do
    match ← plantedWord sym ic st with
    | some w => pass2 sym (nextIc ic st) (img.plant ic w) rest
    | none => pass2 sym (nextIc ic st) img rest

/-- The assembler (R210): the image and the symbol table, or one error and no image (R226). -/
def assemble (source : List Line) : Except AsmError (Image × SymTab) := do
  let stmts ← parseSource source
  let sym := (pass1 stmts).sym
  let img ← pass2 sym 0#12 { planted := [] } stmts
  return (img, sym)

end Sys2Proof.Machine
end

