-- ==== Sys2Proof/Machine/HostOps.lean ====
section
/-! DEFINITION. What the host can do to the machine: build it from initialState (70_reset_and_hazards R280), read and
write a word and load an image (20_memory R57, R58), run it (40_cycle R100, R109), and the boot sequence (R282). -/

namespace Sys2Proof.Machine

/-- The launch parameter initialState (00_scope R9, R280): for each item a value, reduced to the item's width when the
machine is built, or none. `mem` lists the cells that are given one; of two entries for a cell the later counts. -/
structure InitialState where
  ac : Option Nat := none
  link : Option Nat := none
  pc : Option Nat := none
  pf : Option Nat := none
  mem : List (Word × Nat) := []
  deriving DecidableEq, Repr

/-- A value reduced to a word (20_memory R57: `w & 0o7777`). -/
def maskWord (w : Nat) : Word := BitVec.ofNat 12 w

/-- A new machine (R280). IR is 0 until the first fetch writes it (log entry 2). -/
def launch (init : InitialState) : State :=
  { ac := init.ac.map maskWord
    link := init.link.map (fun l => l % 2 == 1)
    pc := init.pc.map maskWord
    ir := 0#12
    running := false
    pf := init.pf.map (fun p => p % 2 == 1)
    mem := init.mem.foldl (fun m c => m.write c.1 (maskWord c.2)) []
    fault := none
    trace := []
    out := []
    stepping := false
    draws := 0 }

/-- The host's `store(addr, w)` (R57): no trace event; an address above 4095 is refused (D34), and nothing else is, also
where FAULT is set (DESIGN CHOICE: R57 names no other condition; log entry 24). -/
def hostStore (addr w : Nat) (s : State) : Host.Outcome State Fault Refusal :=
  if addr < 4096 then .next (s.setMem (BitVec.ofNat 12 addr) (maskWord w)) else .refused .hostAddressOutOfRange

/-- The host's `load(addr)` (R57): the word, or "no value" for a cell that has none (60_exceptions R274). -/
def hostLoad (addr : Nat) (s : State) : Except Refusal (Option Word) :=
  if addr < 4096 then .ok (s.mem.read (BitVec.ofNat 12 addr)) else .error .hostAddressOutOfRange

/-- The host's `load_image` (R58): every cell is replaced, with no trace event. It is accepted in every state, also where
FAULT is set (DESIGN CHOICE: R58 names no condition; log entry 24). -/
def hostLoadImage (img : Image) (s : State) : State :=
  { s with mem := (List.range 4096).map fun k => (k, img.word (BitVec.ofNat 12 k)) }

/-- The host's `run(start?, stepping)` up to its loop (40_cycle R100): refused on a faulted machine (D18) or for a start
above 4095 (D36); otherwise RUN is set and PC seeded, and nothing else changes (R281). -/
def hostRun (start : Option Nat) (stepping : Bool) (s : State) : Host.Outcome State Fault Refusal :=
  if s.fault.isSome then .refused .runOnFaultedMachine
  else
    match start with
    | none => .next { s with running := true, stepping := stepping }
    | some a =>
      if a < 4096 then .next { s with running := true, stepping := stepping, pc := some (BitVec.ofNat 12 a) }
      else .refused .startOutOfRange

/-- The loop of run() (R109), cut after `fuel` steps: the state in which it returns to the host, or none where it has
not returned yet. A run that no fuel ends is the hang that R109 admits. -/
def runLoop : Nat → State → Option State
  | 0, s => if s.canStep then none else some s
  | fuel + 1, s =>
    match step s with
    | .next t => runLoop fuel t
    | .fault _ => some s
    | .refused _ => some s

/-- The host's stores, in order (R282); the first refused one ends them. -/
def hostStores : List (Nat × Nat) → State → Host.Outcome State Fault Refusal
  | [], s => .next s
  | (addr, w) :: rest, s =>
    match hostStore addr w s with
    | .next t => hostStores rest t
    | other => other

/-- The boot sequence (R282): assemble, load the image, the host's stores, run() up to its loop. A failed assembly
loads nothing (R290). -/
def boot (source : List Line) (stores : List (Nat × Nat)) (start : Option Nat) (stepping : Bool) (s : State) :
    Except AsmError (Host.Outcome State Fault Refusal) := do
  let (img, _) ← assemble source
  return match hostStores stores (hostLoadImage img s) with
    | .next t => hostRun start stepping t
    | other => other

end Sys2Proof.Machine
end

