-- ==== Sys2Proof/Safety.lean ====
section
/-! DEFINITION. What counts as a sound state and how a run ended (40_cycle R112), in the terms the statements use. -/

namespace Sys2Proof.Machine

/-- An InstructionExecuted event names the PC after the instruction (R107): PC has a value once a fetch succeeded. -/
def TraceEvent.namesPc : TraceEvent → Bool
  | .instructionExecuted _ _ _ _ newPC => newPC.isSome
  | .memoryWrite _ _ => true
  | .halt _ => true

/-- A Halt event (R203). -/
def TraceEvent.isHalt : TraceEvent → Bool
  | .instructionExecuted _ _ _ _ _ => false
  | .memoryWrite _ _ => false
  | .halt _ => true

/-- The invariant of the machine: memory is in its canonical form (R27), a machine with an error record does not run
(40_cycle R110; 60_exceptions R264), the punch never sent a zero (43_iot R155), every InstructionExecuted event
names a PC (R107), and TRACE does not end in a Halt event, since HLT's InstructionExecuted comes after it (R107, R203). -/
abbrev State.Inv (s : State) : Prop :=
  s.mem.wf ∧ (s.fault ≠ none → s.running = false) ∧ (∀ v ∈ s.out, v ≠ 0#12) ∧ (∀ e ∈ s.trace, e.namesPc = true) ∧
    ∀ e ∈ s.trace.getLast?, e.isHalt = false

/-- The three ways a run() call ends (R112). -/
inductive RunEnd where
  | halted
  | stepped
  | faulted
  deriving DecidableEq, Repr

/-- Whether the last instruction executed had the HLT bit: its Halt event comes right before its InstructionExecuted
(R112, R203). The argument is TRACE, the newest event first. -/
def endsInHalt : List TraceEvent → Bool
  | .instructionExecuted _ _ _ _ _ :: .halt _ :: _ => true
  | _ => false

/-- How the run that left the machine in this state ended, told from the state alone (R112; log entry 23); none while
it runs, or where no run has ended. -/
def State.runEnd (s : State) : Option RunEnd :=
  if s.fault.isSome then some .faulted
  else if s.running then none
  else if endsInHalt s.trace.reverse then some .halted
  else if s.stepping then some .stepped
  else none

/-- The machine without its TRACE: what a program's run can depend on (R111). -/
def State.untraced (s : State) : State := { s with trace := [] }

/-- An outcome seen through a view of its next state. -/
def outcomeMap {α : Type} (view : State → α) : Host.Outcome State Fault Refusal → Host.Outcome α Fault Refusal
  | .next s => .next (view s)
  | .fault r => .fault r
  | .refused r => .refused r

end Sys2Proof.Machine
end

