-- ==== Sys2Proof/Certificates/Slice0/Obligations.lean ====
section
/-! DEFINITION. The statements for the provers. Each docstring names the rules of spec/ the statement formalises.
`exec` runs a handler in the state after the fetch, where PC is already advanced (40_cycle R102, R104); `step` is the
whole step (R114). -/

section

open Sys2Proof Sys2Proof.Machine

/-! ### The rules' own arithmetic, in which the statements give results -/

/-- Sequences 1 to 3 of R184 on AC and L. -/
def Sys2Proof.Rules.sequences123 (g : Group1) (ac : Word) (l : Bool) : Word × Bool :=
  let ac1 := if g.cla then 0#12 else ac
  let l1 := if g.cll then false else l
  let ac2 := if g.cma then ~~~ac1 else ac1
  let l2 := if g.cml then !l1 else l1
  if g.iac then (ac2 + 1#12, decide (ac2 = 0o7777#12)) else (ac2, l2)

/-- R177: `((L << 11) | (AC >> 1), AC[0])`. -/
def Sys2Proof.Rules.rar (p : Word × Bool) : Word × Bool :=
  ((if p.2 then 0o4000#12 else 0#12) ||| (p.1 >>> 1), p.1.getLsbD 0)

/-- R178: `(((AC << 1) & 0o7777) | L, AC[11])`. -/
def Sys2Proof.Rules.ral (p : Word × Bool) : Word × Bool :=
  ((p.1 <<< 1) ||| (if p.2 then 1#12 else 0#12), p.1.getLsbD 11)

/-- Sequence 4 of R184, for a word that does not set both RAR and RAL. -/
def Sys2Proof.Rules.sequence4 (g : Group1) (p : Word × Bool) : Word × Bool :=
  if g.rar then (if g.two then Sys2Proof.Rules.rar (Sys2Proof.Rules.rar p) else Sys2Proof.Rules.rar p)
  else if g.ral then (if g.two then Sys2Proof.Rules.ral (Sys2Proof.Rules.ral p) else Sys2Proof.Rules.ral p)
  else p

/-- Whether a Group-1 word uses AC before it has written it (R172, R174, R176 to R180, R183). -/
def Sys2Proof.Rules.needsAc (g : Group1) : Bool := !g.cla && (g.cma || g.iac || g.rar || g.ral)

/-- Whether a Group-1 word uses L before it has written it: IAC writes L without reading it (R173, R175 to R180,
R183). -/
def Sys2Proof.Rules.needsLink (g : Group1) : Bool := !g.cll && (g.cml || (!g.iac && (g.rar || g.ral)))

/-- Whether a Group-1 word writes AC. -/
def Sys2Proof.Rules.writesAc (g : Group1) : Bool := g.cla || g.cma || g.iac || g.rar || g.ral

/-- Whether a Group-1 word writes L. -/
def Sys2Proof.Rules.writesLink (g : Group1) : Bool := g.cll || g.cml || g.iac || g.rar || g.ral

/-- The skip condition of R206. -/
def Sys2Proof.Rules.skips (g : Group2) (ac : Word) (l : Bool) : Bool :=
  if g.andFamily then
    (!g.sign || !ac.getLsbD 11) && (!g.zero || ac != 0#12) && (!g.link || !l)
  else (g.sign && ac.getLsbD 11) || (g.zero && ac == 0#12) || (g.link && l)

/-- The six memory-reference instructions with one set of fields. -/
def Sys2Proof.Rules.memRefs (i z : Bool) (off : Offset) : List Instr :=
  [.and i z off, .tad i z off, .isz i z off, .dca i z off, .jms i z off, .jmp i z off]

/-- The Group-1 instructions: the generic one with `g`, and the named ones. -/
def Sys2Proof.Rules.group1Instrs (g : Group1) : List Instr :=
  [.oprGroup1 g, .nop, .iac, .ral, .rtl, .rar, .rtr, .cml, .cma, .cll, .cla]

/-- The Group-2 instructions: the generic one with `g`, and the named ones. -/
def Sys2Proof.Rules.group2Instrs (g : Group2) : List Instr :=
  [.oprGroup2 g, .hlt, .skp, .snl, .szl, .sza, .sna, .sma, .spa, .claGroup2, .oprGroup2NoBits]

/-- `t` is `s` with FAULT and RUN alone changed, by the UnwrittenRead of a handler that began in `s`; or FAULT and RUN
are as in `s`. The two ways an instruction without an error of its own can leave FAULT and RUN (R264, R274). -/
def Sys2Proof.Rules.keepsFaultAndRun (s t : State) : Prop :=
  (t.fault = s.fault ∧ t.running = s.running) ∨ ∃ item, t = s.fatal (.unwrittenRead s.instrAddr item)

/-- The addresses that pass 2 plants, from `ic` on (R221): every line but org plants at its own counter. -/
def Sys2Proof.Rules.plantedFrom : Word → List Stmt → List Word
  | _, [] => []
  | ic, st :: rest =>
    match st.shape with
    | .org n => Sys2Proof.Rules.plantedFrom n rest
    | _ => ic :: Sys2Proof.Rules.plantedFrom (ic + 1#12) rest

/-- The instruction counter after some lines, from `ic` on (R220): org sets it, every other line advances it. -/
def Sys2Proof.Rules.counterAfter : Word → List Stmt → Word
  | ic, [] => ic
  | ic, st :: rest =>
    match st.shape with
    | .org n => Sys2Proof.Rules.counterAfter n rest
    | _ => Sys2Proof.Rules.counterAfter (ic + 1#12) rest

/-- Whether a line defines a name: it has that label and is not an org line (R220). -/
def Sys2Proof.Rules.defines (name : SymName) (st : Stmt) : Bool :=
  match st.shape with
  | .org _ => false
  | _ => st.label == some name

/-- The HLT bit of a word: `IR[1]` of a Group-2 word (R65, R203). -/
def Sys2Proof.Rules.hasHltBit (w : Word) : Bool := w.extractLsb' 8 4 == 0b1111#4 && !w.getLsbD 0 && w.getLsbD 1

/-- The state after `n` steps, where all of them can be taken. -/
def Sys2Proof.Rules.afterSteps : Nat → State → Option State
  | 0, s => some s
  | n + 1, s =>
    match step s with
    | .next t => Sys2Proof.Rules.afterSteps n t
    | .fault _ => none
    | .refused _ => none

/-! ### Encoding -/

/-- Decoding the word of a well-formed instruction gives it back, with every operand at every value (30_encoding R61 to
R65, R68, R71; the field places are the spec's decisions D1, D2, D6, D7, D12; the choice between overlapping rows is
log entry 15). -/
def Obligations.DecodeEncodeRoundTrip : Prop := ∀ i : Instr, i.wf = true → decode (encode i) = i

/-- Words written out from the encodings of 30_encoding R61 to R65 (the spec's decisions D1, D2, D6, D7, D12) decode to
the instructions they stand for. -/
def Obligations.SampleWordsDecode : Prop :=
  decode 0o0620#12 = .and true true 0o20#7 ∧ decode 0o1050#12 = .tad false false 0o50#7 ∧
  decode 0o2600#12 = .isz true true 0#7 ∧ decode 0o3204#12 = .dca false true 0o4#7 ∧
  decode 0o4250#12 = .jms false true 0o50#7 ∧ decode 0o5410#12 = .jmp true false 0o10#7 ∧
  decode 0o6036#12 = .iotReader 0o6#3 ∧ decode 0o6046#12 = .iotPunch false true true ∧
  decode 0o6001#12 = .iotUnknown 0#6 0o1#3 ∧
  decode 0o7245#12 = .oprGroup1 { cla := true, cma := true, iac := true, ral := true } ∧
  decode 0o7442#12 = .oprGroup2 { zero := true, hlt := true } ∧ decode 0o7401#12 = .oprNeither 0#7

/-! ### Addressing -/

/-- The four addressing modes (R121 to R124, R126), for an instruction fetched from `a`; that the current page is
that of `a` is the spec's decision D3. The page-zero modes need no instruction address. A pointer cell without a value
makes the resolver fail on that cell, and the current-page modes fail on PC where it has none (R274, the spec's decision
D17). -/
def Obligations.EffectiveAddressOfTheFourModes : Prop :=
  (∀ (s : State) (a : Word) (off : Offset), s.pc = some (a + 1#12) →
    s.resolve false false off = .ok ((a &&& 0o7600#12) ||| off.setWidth 12) ∧
    (∀ v, s.mem.read ((a &&& 0o7600#12) ||| off.setWidth 12) = some v → s.resolve true false off = .ok v) ∧
    (s.mem.read ((a &&& 0o7600#12) ||| off.setWidth 12) = none →
      s.resolve true false off = .error (.mem ((a &&& 0o7600#12) ||| off.setWidth 12)))) ∧
  (∀ (s : State) (off : Offset),
    s.resolve false true off = .ok (off.setWidth 12) ∧
    (∀ v, s.mem.read (off.setWidth 12) = some v → s.resolve true true off = .ok v) ∧
    (s.mem.read (off.setWidth 12) = none → s.resolve true true off = .error (.mem (off.setWidth 12)))) ∧
  ∀ (s : State) (i : Bool) (off : Offset), s.pc = none → s.resolve i false off = .error .pc

/-! ### Memory-reference instructions -/

/-- AND (R131). The places of I, Z and the offset in the word are R61's, the spec's decisions D1 and D2. -/
def Obligations.AndResult : Prop :=
  (∀ w : Word, w.extractLsb' 9 3 = 0#3 → decode w = .and (w.getLsbD 8) (w.getLsbD 7) (w.extractLsb' 0 7)) ∧
  ∀ (s : State) (i z : Bool) (off : Offset) (ea x y : Word),
    s.resolve i z off = .ok ea → s.ac = some x → s.mem.read ea = some y →
      exec (.and i z off) s = .next { s with ac := some (x &&& y) }

/-- TAD (R132) with the addition law (R130): L is overwritten with the carry, whether it had a value or not. The places
of I, Z and the offset in the word are R61's, the spec's decisions D1 and D2. -/
def Obligations.TadResult : Prop :=
  (∀ w : Word, w.extractLsb' 9 3 = 1#3 → decode w = .tad (w.getLsbD 8) (w.getLsbD 7) (w.extractLsb' 0 7)) ∧
  ∀ (s : State) (i z : Bool) (off : Offset) (ea x y : Word),
    s.resolve i z off = .ok ea → s.ac = some x → s.mem.read ea = some y →
      exec (.tad i z off) s =
        .next { s with ac := some (x + y), link := some (decide (0o7777 < x.toNat + y.toNat)) }

/-- ISZ (R133): the increment is always stored, and a zero result skips. The places of I, Z and the offset in the word
are R61's, the spec's decisions D1 and D2; that the skip wraps PC is its decision D4. -/
def Obligations.IszResult : Prop :=
  (∀ w : Word, w.extractLsb' 9 3 = 2#3 → decode w = .isz (w.getLsbD 8) (w.getLsbD 7) (w.extractLsb' 0 7)) ∧
  ∀ (s : State) (i z : Bool) (off : Offset) (ea y pc : Word),
    s.resolve i z off = .ok ea → s.mem.read ea = some y → s.pc = some pc →
      exec (.isz i z off) s =
        .next { s with
          mem := s.mem.write ea (y + 1#12)
          trace := s.trace ++ [.memoryWrite ea (y + 1#12)]
          pc := some (if y = 0o7777#12 then pc + 1#12 else pc) }

/-- DCA (R134). The places of I, Z and the offset in the word are R61's, the spec's decisions D1 and D2. -/
def Obligations.DcaResult : Prop :=
  (∀ w : Word, w.extractLsb' 9 3 = 3#3 → decode w = .dca (w.getLsbD 8) (w.getLsbD 7) (w.extractLsb' 0 7)) ∧
  ∀ (s : State) (i z : Bool) (off : Offset) (ea x : Word),
    s.resolve i z off = .ok ea → s.ac = some x →
      exec (.dca i z off) s =
        .next { s with
          mem := s.mem.write ea x
          trace := s.trace ++ [.memoryWrite ea x]
          ac := some 0#12 }

/-- JMS (R135): the stored word is the already advanced PC (which the spec derives from R104), and PC wraps (the spec's
decision D4). The places of I, Z and the offset in the word are R61's, the spec's decisions D1 and D2. -/
def Obligations.JmsResult : Prop :=
  (∀ w : Word, w.extractLsb' 9 3 = 4#3 → decode w = .jms (w.getLsbD 8) (w.getLsbD 7) (w.extractLsb' 0 7)) ∧
  ∀ (s : State) (i z : Bool) (off : Offset) (ea a : Word),
    s.resolve i z off = .ok ea → s.pc = some (a + 1#12) →
      exec (.jms i z off) s =
        .next { s with
          mem := s.mem.write ea (a + 1#12)
          trace := s.trace ++ [.memoryWrite ea (a + 1#12)]
          pc := some (ea + 1#12) }

/-- JMP (R136). The places of I, Z and the offset in the word are R61's, the spec's decisions D1 and D2. -/
def Obligations.JmpResult : Prop :=
  (∀ w : Word, w.extractLsb' 9 3 = 5#3 → decode w = .jmp (w.getLsbD 8) (w.getLsbD 7) (w.extractLsb' 0 7)) ∧
  ∀ (s : State) (i z : Bool) (off : Offset) (ea : Word),
    s.resolve i z off = .ok ea → exec (.jmp i z off) s = .next { s with pc := some ea }

/-- Where a memory-reference instruction meets an item without a value (R274): the pointer or the instruction address
for all six, then AC before the operand for AND and TAD (the order is the model's, log entry 12), the operand for ISZ
whether AC has a value or not, AC for DCA. The state is that of the fatal stop (R264), with nothing else changed. -/
def Obligations.MemoryReferenceUnwrittenReads : Prop :=
  (∀ (s : State) (i z : Bool) (off : Offset) (item : Item), s.resolve i z off = .error item →
    ∀ ins ∈ Sys2Proof.Rules.memRefs i z off, exec ins s = .next (s.fatal (.unwrittenRead s.instrAddr item))) ∧
  (∀ (s : State) (i z : Bool) (off : Offset) (ea : Word), s.resolve i z off = .ok ea → s.ac = none →
    ∀ ins ∈ [Instr.and i z off, .tad i z off, .dca i z off],
      exec ins s = .next (s.fatal (.unwrittenRead s.instrAddr .ac))) ∧
  (∀ (s : State) (i z : Bool) (off : Offset) (ea x : Word), s.resolve i z off = .ok ea → s.ac = some x →
    s.mem.read ea = none → ∀ ins ∈ [Instr.and i z off, .tad i z off],
      exec ins s = .next (s.fatal (.unwrittenRead s.instrAddr (.mem ea)))) ∧
  (∀ (s : State) (i z : Bool) (off : Offset) (ea : Word), s.resolve i z off = .ok ea → s.mem.read ea = none →
    exec (.isz i z off) s = .next (s.fatal (.unwrittenRead s.instrAddr (.mem ea))))

/-- What AND, TAD and JMP leave unchanged (10_state R31): all of memory, and every register but AC (AND, TAD), L (TAD)
and PC (JMP). -/
def Obligations.LoadAndJumpFrame : Prop :=
  ∀ (s t : State) (i z : Bool) (off : Offset) (ins : Instr),
    ins ∈ [Instr.and i z off, .tad i z off, .jmp i z off] → exec ins s = .next t →
      (∀ b, t.mem.read b = s.mem.read b) ∧ t.trace = s.trace ∧ t.ir = s.ir ∧ t.pf = s.pf ∧ t.out = s.out ∧
      t.stepping = s.stepping ∧ t.draws = s.draws ∧ Sys2Proof.Rules.keepsFaultAndRun s t ∧
      (ins ≠ .jmp i z off → t.pc = s.pc) ∧ (ins ≠ .tad i z off → t.link = s.link) ∧
      (ins = .jmp i z off → t.ac = s.ac)

/-- What ISZ, DCA and JMS leave unchanged (10_state R31): every word of memory but the one at the effective address, L,
and every register but PC (ISZ, JMS) and AC (DCA). -/
def Obligations.StoreFrame : Prop :=
  ∀ (s t : State) (i z : Bool) (off : Offset) (ins : Instr),
    ins ∈ [Instr.isz i z off, .dca i z off, .jms i z off] → exec ins s = .next t →
      (∀ ea, s.resolve i z off = .ok ea → ∀ b, b ≠ ea → t.mem.read b = s.mem.read b) ∧
      (∀ item, s.resolve i z off = .error item → ∀ b, t.mem.read b = s.mem.read b) ∧
      t.link = s.link ∧ t.ir = s.ir ∧ t.pf = s.pf ∧ t.out = s.out ∧
      t.stepping = s.stepping ∧ t.draws = s.draws ∧ Sys2Proof.Rules.keepsFaultAndRun s t ∧
      (ins ≠ .dca i z off → t.ac = s.ac) ∧ (ins = .dca i z off → t.pc = s.pc)

/-! ### IOT -/

/-- The reader stub (R151): its eight words, and no effect (the spec's decision D16). -/
def Obligations.ReaderHasNoEffect : Prop :=
  (∀ w : Word, w.extractLsb' 3 9 = 0o603#9 → decode w = .iotReader (w.extractLsb' 0 3)) ∧
  ∀ (ops : BitVec 3) (s : State), exec (.iotReader ops) s = .next s

/-- The punch (R152 to R155, R157), for either value of the open parameter (D14, log entry 6); the order of the bits and
the word sent are the spec's decisions D13 and D15. -/
def Obligations.PunchResult : Prop :=
  (∀ w : Word, w.extractLsb' 3 9 = 0o604#9 →
    decode w = .iotPunch (w.getLsbD 0) (w.getLsbD 1) (w.getLsbD 2)) ∧
  ∀ (s : State) (skip clear send ready : Bool) (x pc : Word),
    s.ac = some x → s.pf = some ready → s.pc = some pc →
      exec (.iotPunch skip clear send) s =
        .next { s with
          pc := some (if skip && ready then pc + 1#12 else pc)
          pf := some (send || (!clear && (ready && !(skip && Config.punchSkipClearsFlag))))
          out := if send && x != 0#12 then s.out ++ [x] else s.out }

/-- The punch reads PF only for bit 0 and AC only for bit 2 (R274), in this order (R152, the spec's decision D13). Bit 1
alone and no bit need neither; the words without bit 0 complete whatever PF is, those without bit 2 whatever AC is (for
either value of the open parameter, log entry 6); bit 0 without a PF value stops on PF, and bit 2 without an AC value on
AC, after bit 0 too. What bit 2 does is the spec's decision D15. -/
def Obligations.PunchReadsOnlyWhatItsBitsUse : Prop :=
  (∀ s : State, exec (.iotPunch false false false) s = .next s ∧
    exec (.iotPunch false true false) s = .next { s with pf := some false }) ∧
  (∀ (s : State) (clear : Bool) (x : Word), s.ac = some x →
    exec (.iotPunch false clear true) s =
      .next { s with pf := some true, out := if x != 0#12 then s.out ++ [x] else s.out }) ∧
  (∀ (s : State) (clear ready : Bool) (pc : Word), s.pf = some ready → s.pc = some pc →
    exec (.iotPunch true clear false) s =
      .next { s with
        pc := some (if ready then pc + 1#12 else pc)
        pf := some (!clear && (ready && !Config.punchSkipClearsFlag)) }) ∧
  (∀ (s : State) (clear send : Bool), s.pf = none →
    exec (.iotPunch true clear send) s = .next (s.fatal (.unwrittenRead s.instrAddr .pf))) ∧
  (∀ (s : State) (clear : Bool), s.ac = none →
    exec (.iotPunch false clear true) s = .next (s.fatal (.unwrittenRead s.instrAddr .ac))) ∧
  (∀ (s : State) (clear ready : Bool) (pc : Word), s.pf = some ready → s.pc = some pc → s.ac = none →
    exec (.iotPunch true clear true) s = .next (s.fatal (.unwrittenRead s.instrAddr .ac)))

/-- An unknown device (R156, R263): the fatal stop, as the instruction's effect and as the whole step, which emits
nothing. The place of the device code is the spec's decision D12, `a` and `dev` in the record its decision D38, and
that no event is emitted its decision D19. -/
def Obligations.UnknownDeviceStops : Prop :=
  (∀ (s : State) (dev : BitVec 6) (ops : BitVec 3),
    exec (.iotUnknown dev ops) s =
      .next { s with fault := some (.unknownDeviceError s.instrAddr s.ir dev), running := false }) ∧
  ∀ (s : State) (a w : Word), s.running = true → s.fault = none → s.pc = some a → s.mem.read a = some w →
    w.extractLsb' 9 3 = 0o6#3 → w.extractLsb' 3 6 ≠ 0o03#6 → w.extractLsb' 3 6 ≠ 0o04#6 →
      step s = .next { s with
        ir := w
        pc := some (a + 1#12)
        fault := some (.unknownDeviceError (some a) w (w.extractLsb' 3 6))
        running := false }

/-- What IOT leaves unchanged (10_state R31; R151, R156, R157): AC, L, memory and TRACE always; PC but for the punch's
skip; PF but for the punch; OUT but for the punch's bit 2. -/
def Obligations.IotFrame : Prop :=
  ∀ (s t : State) (ins : Instr) (ops : BitVec 3) (skip clear send : Bool) (dev : BitVec 6),
    ins ∈ [Instr.iotReader ops, .iotPunch skip clear send, .iotUnknown dev ops] → exec ins s = .next t →
      t.ac = s.ac ∧ t.link = s.link ∧ (∀ b, t.mem.read b = s.mem.read b) ∧ t.trace = s.trace ∧ t.ir = s.ir ∧
      t.stepping = s.stepping ∧ t.draws = s.draws ∧
      (ins ≠ .iotUnknown dev ops → Sys2Proof.Rules.keepsFaultAndRun s t) ∧
      (ins ≠ .iotPunch skip clear send → t.pf = s.pf ∧ t.out = s.out ∧ t.pc = s.pc) ∧
      (ins = .iotPunch skip clear send → (skip = false → t.pc = s.pc) ∧ (send = false → t.out = s.out) ∧
        (skip = false → clear = false → send = false → t.pf = s.pf))

/-! ### Operate Group 1 -/

/-- CLA, CLL, CMA and CML alone (R172 to R175), and CLA of Group 2 alone (R202): each needs only what it reads. -/
def Obligations.ClearsAndComplements : Prop :=
  (decode 0o7200#12 = .cla ∧ decode 0o7600#12 = .claGroup2 ∧ decode 0o7100#12 = .cll ∧ decode 0o7040#12 = .cma ∧
    decode 0o7020#12 = .cml) ∧
  (∀ s : State, exec .cla s = .next { s with ac := some 0#12 } ∧
    exec .claGroup2 s = .next { s with ac := some 0#12 }) ∧
  (∀ s : State, exec .cll s = .next { s with link := some false }) ∧
  (∀ (s : State) (x : Word), s.ac = some x → exec .cma s = .next { s with ac := some (0o7777#12 - x) }) ∧
  (∀ (s : State) (l : Bool), s.link = some l → exec .cml s = .next { s with link := some (!l) })

/-- IAC alone (R176): L is overwritten with the carry, whether it had a value or not. -/
def Obligations.IacResult : Prop :=
  decode 0o7001#12 = .iac ∧
  ∀ (s : State) (x : Word), s.ac = some x →
    exec .iac s = .next { s with ac := some (x + 1#12), link := some (decide (x = 0o7777#12)) }

/-- RAR, RAL, RTR and RTL alone (R177 to R180). -/
def Obligations.RotateResults : Prop :=
  (decode 0o7010#12 = .rar ∧ decode 0o7004#12 = .ral ∧ decode 0o7012#12 = .rtr ∧ decode 0o7006#12 = .rtl) ∧
  ∀ (s : State) (x : Word) (l : Bool), s.ac = some x → s.link = some l →
    exec .rar s = .next { s with
      ac := some (Sys2Proof.Rules.rar (x, l)).1, link := some (Sys2Proof.Rules.rar (x, l)).2 } ∧
    exec .ral s = .next { s with
      ac := some (Sys2Proof.Rules.ral (x, l)).1, link := some (Sys2Proof.Rules.ral (x, l)).2 } ∧
    exec .rtr s = .next { s with
      ac := some (Sys2Proof.Rules.rar (Sys2Proof.Rules.rar (x, l))).1
      link := some (Sys2Proof.Rules.rar (Sys2Proof.Rules.rar (x, l))).2 } ∧
    exec .rtl s = .next { s with
      ac := some (Sys2Proof.Rules.ral (Sys2Proof.Rules.ral (x, l))).1
      link := some (Sys2Proof.Rules.ral (Sys2Proof.Rules.ral (x, l))).2 }

/-- NOP (R181) and the Group-2 word with no bits set (R201): no effect beyond the PC advance of the fetch. -/
def Obligations.WordsWithoutEffect : Prop :=
  (decode 0o7000#12 = .nop ∧ decode 0o7400#12 = .oprGroup2NoBits) ∧
  ∀ s : State, exec .nop s = .next s ∧ exec .oprGroup2NoBits s = .next s

/-- The Group-1 sequencer (R171) over its micro-operations (R172 to R180), for any combination of bits without both
rotates; and every Group-1 word, named or not, does what its bits say. The selection of the group (R170) and the bit places (R64) are the spec's
decisions D6 and D7; that a word goes to its named row is the model's choice, log entry 15. -/
def Obligations.Group1SequencerResult : Prop :=
  (∀ (s : State) (g : Group1) (x : Word) (l : Bool), s.ac = some x → s.link = some l → (g.rar && g.ral) = false →
    exec (.oprGroup1 g) s = .next { s with
      ac := some (Sys2Proof.Rules.sequence4 g (Sys2Proof.Rules.sequences123 g x l)).1
      link := some (Sys2Proof.Rules.sequence4 g (Sys2Proof.Rules.sequences123 g x l)).2 }) ∧
  ∀ (s : State) (w : Word), w.extractLsb' 8 4 = 0b1110#4 →
    exec (decode w) s = exec (.oprGroup1
      { cla := w.getLsbD 7, cll := w.getLsbD 6, cma := w.getLsbD 5, cml := w.getLsbD 4,
        rar := w.getLsbD 3, ral := w.getLsbD 2, two := w.getLsbD 1, iac := w.getLsbD 0 }) s

/-- RAR and RAL together (R183; 92_eei_decisions D9): after sequences 1 to 3, AC and L are a draw that nothing
constrains, numbered by the model's own counter (log entry 5), and the instruction completes; AC and L are read for it
(log entry 14). -/
def Obligations.UndefinedRotateIsADraw : Prop :=
  ∀ (s : State) (g : Group1) (x : Word) (l : Bool), s.ac = some x → s.link = some l → g.rar = true → g.ral = true →
    exec (.oprGroup1 g) s = .next { s with
      ac := some (Config.draw1 s.draws (Sys2Proof.Rules.sequences123 g x l).1
        (Sys2Proof.Rules.sequences123 g x l).2).1
      link := some (Config.draw1 s.draws (Sys2Proof.Rules.sequences123 g x l).1
        (Sys2Proof.Rules.sequences123 g x l).2).2
      draws := s.draws + 1 }

/-- A Group-1 word reads AC and L only where a micro-operation uses them before another has written them (R274), and
what it does then. CLA and CLL give AC and L a value, so a word with both completes from a machine where neither had
one (70_reset_and_hazards R283). Any word without both rotates completes where the items it needs have a value; an item
it does not write stays as it is, with a value or not. A word that needs AC stops on AC where that alone is missing, and
one that needs L on L; that the undefined rotate needs both is the model's choice, log entry 14. -/
def Obligations.Group1ReadsOnlyWhatItUses : Prop :=
  (∀ (s : State) (g : Group1), g.cla = true → g.cll = true →
    exec (.oprGroup1 g) s = exec (.oprGroup1 g) { s with ac := some 0#12, link := some false }) ∧
  (∀ (s : State) (g : Group1) (x : Word) (l : Bool), (g.rar && g.ral) = false →
    (Sys2Proof.Rules.needsAc g = true → s.ac = some x) → (Sys2Proof.Rules.needsLink g = true → s.link = some l) →
      let p := Sys2Proof.Rules.sequence4 g (Sys2Proof.Rules.sequences123 g x l)
      exec (.oprGroup1 g) s = .next { s with
        ac := if Sys2Proof.Rules.writesAc g then some p.1 else s.ac
        link := if Sys2Proof.Rules.writesLink g then some p.2 else s.link }) ∧
  (∀ (s : State) (g : Group1), Sys2Proof.Rules.needsAc g = true → s.ac = none →
    (Sys2Proof.Rules.needsLink g = true → s.link.isSome) →
      exec (.oprGroup1 g) s = .next (s.fatal (.unwrittenRead s.instrAddr .ac))) ∧
  (∀ (s : State) (g : Group1), Sys2Proof.Rules.needsLink g = true → s.link = none →
    (Sys2Proof.Rules.needsAc g = true → s.ac.isSome) →
      exec (.oprGroup1 g) s = .next (s.fatal (.unwrittenRead s.instrAddr .link))) ∧
  (∀ s : State, s.ac = none → ∀ ins ∈ [Instr.cma, .iac],
    exec ins s = .next (s.fatal (.unwrittenRead s.instrAddr .ac))) ∧
  (∀ s : State, s.link = none → exec .cml s = .next (s.fatal (.unwrittenRead s.instrAddr .link))) ∧
  (∀ s : State, s.ac = none → s.link.isSome → ∀ ins ∈ [Instr.rar, .ral, .rtr, .rtl],
    exec ins s = .next (s.fatal (.unwrittenRead s.instrAddr .ac))) ∧
  (∀ s : State, s.ac.isSome → s.link = none → ∀ ins ∈ [Instr.rar, .ral, .rtr, .rtl],
    exec ins s = .next (s.fatal (.unwrittenRead s.instrAddr .link)))

/-- The order example (R185), from any AC and L = 0, and the one word of every order of its four mnemonics. -/
def Obligations.ClaCmaIacRalExample : Prop :=
  decode 0o7245#12 = .oprGroup1 { cla := true, cma := true, iac := true, ral := true } ∧
  (∀ (s : State) (x : Word), s.ac = some x → s.link = some false →
    exec (decode 0o7245#12) s = .next { s with ac := some 1#12, link := some false }) ∧
  ∀ values : List Word, values.Perm [0o7200#12, 0o7040#12, 0o7001#12, 0o7004#12] → operateWord values = 0o7245#12

/-- The rotate law (R186): RAR then RAL, or RAL then RAR, restores the state. -/
def Obligations.RotateLaw : Prop :=
  ∀ (s : State) (x : Word) (l : Bool), s.ac = some x → s.link = some l →
    (∃ t, exec .rar s = .next t ∧ exec .ral t = .next s) ∧
    (∃ t, exec .ral s = .next t ∧ exec .rar t = .next s)

/-- The rotates rotate the 13-bit L:AC (10_state R22): RAR and RAL by one place, RTR and RTL by two. -/
def Obligations.RotatesTurnTheExtendedRegister : Prop :=
  ∀ (s : State) (x : Word) (l : Bool), s.ac = some x → s.link = some l →
    ∀ c ∈ [(Instr.rar, 1, 0), (.rtr, 2, 0), (.ral, 0, 1), (.rtl, 0, 2)],
      ∃ t x' l', exec c.1 s = .next t ∧ t.ac = some x' ∧ t.link = some l' ∧
        extended x' l' = ((extended x l).rotateRight c.2.1).rotateLeft c.2.2

/-- What Group 1 leaves unchanged (10_state R31; 44_operate_group1): everything but AC and L, and the model's draw
counter for the undefined rotate; AC and L too in a word that sets none of the bits that act on them. -/
def Obligations.Group1Frame : Prop :=
  ∀ (s t : State) (g : Group1) (ins : Instr), ins ∈ Sys2Proof.Rules.group1Instrs g → exec ins s = .next t →
    t.pc = s.pc ∧ t.ir = s.ir ∧ t.pf = s.pf ∧ (∀ b, t.mem.read b = s.mem.read b) ∧ t.trace = s.trace ∧
    t.out = s.out ∧ t.stepping = s.stepping ∧ Sys2Proof.Rules.keepsFaultAndRun s t ∧
    (g.rar = false ∨ g.ral = false → t.draws = s.draws) ∧
    (ins ∈ [Instr.nop, .cml, .cll] → t.ac = s.ac) ∧ (ins ∈ [Instr.nop, .cma, .cla] → t.link = s.link) ∧
    (ins = .oprGroup1 g → g.iac = false → g.rar = false → g.ral = false →
      (g.cla = false → g.cma = false → t.ac = s.ac) ∧ (g.cll = false → g.cml = false → t.link = s.link))

/-! ### Operate Group 2 -/

/-- The Group-2 sequencer (R190 to R193, R202 to R204, R206), for any combination of bits; and every Group-2 word, named
or not, does what its bits say. The AND family with fewer than three conditions and the PC in Halt are the spec's
decisions D10 and D19, the selection of the group (R190) and the bit places (R65) its decisions D6 and D7; that a word
goes to its named row is the model's choice, log entry 15. -/
def Obligations.Group2SequencerResult : Prop :=
  (∀ (s : State) (g : Group2) (x pc : Word) (l : Bool), s.ac = some x → s.link = some l → s.pc = some pc →
    let pc' := if Sys2Proof.Rules.skips g x l then pc + 1#12 else pc
    exec (.oprGroup2 g) s =
      .next { s with
        pc := some pc'
        ac := some (if g.cla then 0#12 else x)
        running := if g.hlt then false else s.running
        trace := if g.hlt then s.trace ++ [.halt pc'] else s.trace }) ∧
  ∀ (s : State) (w : Word), w.extractLsb' 8 4 = 0b1111#4 → w.getLsbD 0 = false →
    exec (decode w) s = exec (.oprGroup2
      { cla := w.getLsbD 7, sign := w.getLsbD 6, zero := w.getLsbD 5, link := w.getLsbD 4,
        andFamily := w.getLsbD 3, unused := w.getLsbD 2, hlt := w.getLsbD 1 }) s

/-- The skip tests alone, each needing only what it reads: SMA, SZA, SNL of the OR family (R194 to R196) and SPA, SNA,
SZL, SKP of the AND family (R197 to R200; that SKP always skips is the spec's decision D10). -/
def Obligations.SkipTestResults : Prop :=
  (decode 0o7500#12 = .sma ∧ decode 0o7440#12 = .sza ∧ decode 0o7420#12 = .snl ∧ decode 0o7510#12 = .spa ∧
    decode 0o7450#12 = .sna ∧ decode 0o7430#12 = .szl ∧ decode 0o7410#12 = .skp) ∧
  (∀ (s : State) (x pc : Word), s.ac = some x → s.pc = some pc →
    exec .sma s = .next { s with pc := some (if x.getLsbD 11 then pc + 1#12 else pc) } ∧
    exec .sza s = .next { s with pc := some (if x = 0#12 then pc + 1#12 else pc) } ∧
    exec .spa s = .next { s with pc := some (if x.getLsbD 11 then pc else pc + 1#12) } ∧
    exec .sna s = .next { s with pc := some (if x = 0#12 then pc else pc + 1#12) }) ∧
  (∀ (s : State) (l : Bool) (pc : Word), s.link = some l → s.pc = some pc →
    exec .snl s = .next { s with pc := some (if l then pc + 1#12 else pc) } ∧
    exec .szl s = .next { s with pc := some (if l then pc else pc + 1#12) }) ∧
  ∀ (s : State) (pc : Word), s.pc = some pc → exec .skp s = .next { s with pc := some (pc + 1#12) }

/-- HLT alone (R203), as the instruction's effect and as the whole step, whose TRACE ends with Halt and then
InstructionExecuted (the trace points are the spec's decision D19). -/
def Obligations.HltResult : Prop :=
  decode 0o7402#12 = .hlt ∧
  (∀ (s : State) (pc : Word), s.pc = some pc →
    exec .hlt s = .next { s with running := false, trace := s.trace ++ [.halt pc] }) ∧
  ∀ (s : State) (a : Word), s.running = true → s.fault = none → s.pc = some a → s.mem.read a = some 0o7402#12 →
    step s = .next { s with
      ir := 0o7402#12
      pc := some (a + 1#12)
      running := false
      trace := s.trace ++ [.halt (a + 1#12),
        .instructionExecuted a 0o7402#12 s.ac s.link (some (a + 1#12))] }

/-- Each named operate word does what its group's generic sequencer does with its bits alone (R64, R65, R71, R184,
R206), in every state, items without a value included. -/
def Obligations.NamedWordsAreTheirBits : Prop :=
  ∀ s : State,
    (exec .nop s = exec (.oprGroup1 {}) s ∧ exec .iac s = exec (.oprGroup1 { iac := true }) s ∧
      exec .ral s = exec (.oprGroup1 { ral := true }) s ∧
      exec .rtl s = exec (.oprGroup1 { ral := true, two := true }) s ∧
      exec .rar s = exec (.oprGroup1 { rar := true }) s ∧
      exec .rtr s = exec (.oprGroup1 { rar := true, two := true }) s ∧
      exec .cml s = exec (.oprGroup1 { cml := true }) s ∧ exec .cma s = exec (.oprGroup1 { cma := true }) s ∧
      exec .cll s = exec (.oprGroup1 { cll := true }) s ∧ exec .cla s = exec (.oprGroup1 { cla := true }) s) ∧
    (exec .oprGroup2NoBits s = exec (.oprGroup2 {}) s ∧ exec .hlt s = exec (.oprGroup2 { hlt := true }) s ∧
      exec .skp s = exec (.oprGroup2 { andFamily := true }) s ∧ exec .snl s = exec (.oprGroup2 { link := true }) s ∧
      exec .szl s = exec (.oprGroup2 { link := true, andFamily := true }) s ∧
      exec .sza s = exec (.oprGroup2 { zero := true }) s ∧
      exec .sna s = exec (.oprGroup2 { zero := true, andFamily := true }) s ∧
      exec .sma s = exec (.oprGroup2 { sign := true }) s ∧
      exec .spa s = exec (.oprGroup2 { sign := true, andFamily := true }) s ∧
      exec .claGroup2 s = exec (.oprGroup2 { cla := true }) s)

/-- The two unassigned bits do nothing, whatever else the word does (R72): Group-1 IR[1] without a rotate (R182,
the spec's decision D8) and Group-2 IR[2] in either family (R204, the spec's decision D11). -/
def Obligations.UnassignedBitsDoNothing : Prop :=
  (∀ (s : State) (g : Group1), g.rar = false → g.ral = false →
    exec (.oprGroup1 { g with two := true }) s = exec (.oprGroup1 { g with two := false }) s) ∧
  ∀ (s : State) (g : Group2),
    exec (.oprGroup2 { g with unused := true }) s = exec (.oprGroup2 { g with unused := false }) s

/-- A Group-2 test whose enable bit is clear is not a read (R274), and one whose bit is set is. Without the link
condition a word does the same with whatever L holds, or with no L, and leaves L as it is; without the sign and the zero
condition it completes whatever AC holds, or with no AC, which it clears for CLA and else leaves as it is. A word that
tests AC stops on AC where that alone is missing, and one that tests L on L, also where another condition already
decides the skip, which is the model's choice, log entry 13. (The AND family is the spec's decision D10, the PC in Halt
its decision D19.) -/
def Obligations.Group2ReadsOnlyWhatItUses : Prop :=
  (∀ (s : State) (g : Group2) (l : Option Bool), g.link = false →
    exec (.oprGroup2 g) { s with link := l } = outcomeMap (fun t => { t with link := l }) (exec (.oprGroup2 g) s)) ∧
  (∀ (s : State) (g : Group2) (pc : Word) (l : Bool), g.sign = false → g.zero = false → s.pc = some pc →
    (g.link = true → s.link = some l) →
      let pc' := if Sys2Proof.Rules.skips g 0#12 l then pc + 1#12 else pc
      exec (.oprGroup2 g) s =
        .next { s with
          pc := some pc'
          ac := if g.cla then some 0#12 else s.ac
          running := if g.hlt then false else s.running
          trace := if g.hlt then s.trace ++ [.halt pc'] else s.trace }) ∧
  (∀ (s : State) (g : Group2), (g.sign || g.zero) = true → s.ac = none → (g.link = true → s.link.isSome) →
    exec (.oprGroup2 g) s = .next (s.fatal (.unwrittenRead s.instrAddr .ac))) ∧
  (∀ (s : State) (g : Group2), g.link = true → s.link = none → ((g.sign || g.zero) = true → s.ac.isSome) →
    exec (.oprGroup2 g) s = .next (s.fatal (.unwrittenRead s.instrAddr .link))) ∧
  (∀ s : State, s.ac = none → ∀ ins ∈ [Instr.sma, .sza, .spa, .sna],
    exec ins s = .next (s.fatal (.unwrittenRead s.instrAddr .ac))) ∧
  (∀ s : State, s.link = none → ∀ ins ∈ [Instr.snl, .szl],
    exec ins s = .next (s.fatal (.unwrittenRead s.instrAddr .link)))

/-- A word in neither group (R205, R262): the fatal stop, as the instruction's effect and as the whole step, which
emits nothing; the PC in the record is the spec's decision D37. -/
def Obligations.NeitherGroupStops : Prop :=
  (∀ (s : State) (bits : BitVec 7),
    exec (.oprNeither bits) s =
      .next { s with fault := some (.decodeError s.instrAddr s.ir s.pc), running := false }) ∧
  ∀ (s : State) (a w : Word), s.running = true → s.fault = none → s.pc = some a → s.mem.read a = some w →
    w.extractLsb' 8 4 = 0b1111#4 → w.getLsbD 0 = true →
      step s = .next { s with
        ir := w
        pc := some (a + 1#12)
        fault := some (.decodeError (some a) w (some (a + 1#12)))
        running := false }

/-- What Group 2 leaves unchanged (10_state R31; 45_operate_group2): L, PF, memory and OUT always; PC but for a skip
that is possible; AC but for CLA; RUN and TRACE but for HLT. -/
def Obligations.Group2Frame : Prop :=
  ∀ (s t : State) (g : Group2) (ins : Instr), ins ∈ Sys2Proof.Rules.group2Instrs g → exec ins s = .next t →
    t.link = s.link ∧ t.ir = s.ir ∧ t.pf = s.pf ∧ (∀ b, t.mem.read b = s.mem.read b) ∧ t.out = s.out ∧
    t.stepping = s.stepping ∧ t.draws = s.draws ∧
    (ins ≠ .claGroup2 → (ins = .oprGroup2 g → g.cla = false) → t.ac = s.ac) ∧
    (ins ∈ [Instr.hlt, .claGroup2, .oprGroup2NoBits] → t.pc = s.pc) ∧
    (ins ≠ .hlt → (ins = .oprGroup2 g → g.hlt = false) → t.trace = s.trace ∧ Sys2Proof.Rules.keepsFaultAndRun s t) ∧
    (t.fault = s.fault ∨ ∃ item, t = s.fatal (.unwrittenRead s.instrAddr item))

/-! ### The step -/

/-- A step runs the decoded instruction (R102 to R105, R107, R108, R114): the handler of the fetched word in the state
after the fetch and the PC advance, then the InstructionExecuted event, and the end of a stepped run. The loop of R109
does this last part after the step; that `step` itself does it is the model's choice, log entry 10. -/
def Obligations.StepRunsTheDecodedInstruction : Prop :=
  ∀ (s : State) (a w : Word) (i : Instr), s.running = true → s.fault = none → s.pc = some a →
    s.mem.read a = some w → decode w = i →
      step s = outcomeMap (fun u => (u.emitExecuted a).endStepping) (exec i { s with ir := w, pc := some (a + 1#12) })

/-- A step can be taken exactly when RUN is true and FAULT is none (R101). -/
def Obligations.StepsExactlyWhenRunning : Prop :=
  ∀ s : State, (∃ t, step s = .next t) ↔ s.running = true ∧ s.fault = none

/-- Every instruction answers a next state from every state: no access can fault and no instruction is refused
(20_memory R50; 60_exceptions R268). -/
def Obligations.EveryInstructionAnswersANextState : Prop := ∀ (i : Instr) (s : State), ∃ t, exec i s = .next t

/-- A fetch that meets no value (R264, R267, R274): the fatal UnwrittenRead, with IR and PC as they were. -/
def Obligations.FetchWithoutAValueStops : Prop :=
  ∀ s : State, s.running = true → s.fault = none →
    (s.pc = none → step s = .next (s.fatal (.unwrittenRead none .pc))) ∧
    (∀ a, s.pc = some a → s.mem.read a = none → step s = .next (s.fatal (.unwrittenRead (some a) (.mem a))))

/-- A CPU error is a fatal stop (R110, R264): whatever instruction raises it, FAULT and RUN alone change, and every
write and event the handler made is undone. -/
def Obligations.FatalErrorUndoesTheHandler : Prop :=
  ∀ (i : Instr) (s t : State), s.fault = none → exec i s = .next t → t.fault ≠ none → ∃ e, t = s.fatal e

/-- Which instructions raise which error (R262, R263, R274): a DecodeError only an OPR word in neither group, an
UnknownDeviceError only an IOT to an unknown device, and each of them always. -/
def Obligations.ErrorsHaveTheirOwnInstructions : Prop :=
  ∀ (i : Instr) (s t : State), s.fault = none → exec i s = .next t →
    ((∃ a ir pc, t.fault = some (.decodeError a ir pc)) ↔ ∃ bits, i = .oprNeither bits) ∧
    ((∃ a ir dev, t.fault = some (.unknownDeviceError a ir dev)) ↔ ∃ dev ops, i = .iotUnknown dev ops)

/-- The InstructionExecuted event (R107): a step that completes appends it last, with AC, L and PC as the handler left
them; a step that raises a fatal error leaves TRACE as it was (the spec's decision D19). -/
def Obligations.CompletedStepsAreTraced : Prop :=
  ∀ s t : State, step s = .next t →
    (t.fault = none → ∃ a w events, s.pc = some a ∧ s.mem.read a = some w ∧
      t.trace = s.trace ++ events ++ [.instructionExecuted a w t.ac t.link t.pc]) ∧
    (t.fault ≠ none → t.trace = s.trace)

/-- Single-stepping (R108): after one instruction of a stepped run RUN is false, so exactly one executes; an unstepped
run goes on unless the instruction halted or raised a fatal error (R109). That `step` ends the stepped run and that the
argument is a field of the state is the model's choice, log entry 10; that a halt is told by the last two events is the
model's reading, log entry 23, of the spec's decision D19. -/
def Obligations.SteppedRunEndsAfterOneStep : Prop :=
  ∀ s t : State, step s = .next t →
    t.stepping = s.stepping ∧ (s.stepping = true → t.running = false ∧ ∀ u, step t ≠ .next u) ∧
    (s.stepping = false → t.running = false → t.fault ≠ none ∨ endsInHalt t.trace.reverse = true)

/-- Both streams are append-only (10_state R29). -/
def Obligations.StreamsAreAppendOnly : Prop :=
  ∀ s t : State, step s = .next t → s.trace <+: t.trace ∧ s.out <+: t.out

/-- An item that has a value keeps having one (R274: a write gives a value, and nothing takes one away). -/
def Obligations.ValuesAreNeverLost : Prop :=
  ∀ s t : State, step s = .next t →
    (s.ac.isSome → t.ac.isSome) ∧ (s.link.isSome → t.link.isSome) ∧ (s.pc.isSome → t.pc.isSome) ∧
    (s.pf.isSome → t.pf.isSome) ∧ ∀ b, (s.mem.read b).isSome → (t.mem.read b).isSome

/-- The tracer is passive (R111): two machines that differ only in TRACE take steps that differ only in TRACE. -/
def Obligations.TraceIsPassive : Prop :=
  ∀ s s' : State, s.untraced = s'.untraced →
    outcomeMap State.untraced (step s) = outcomeMap State.untraced (step s')

/-- Every step keeps the invariant of `State.Inv`: memory stays canonical, a machine with an error record does not run,
the punch never sent a zero, every InstructionExecuted event names a PC, TRACE does not end in a Halt event. -/
def Obligations.StepKeepsTheInvariant : Prop := ∀ s t : State, s.Inv → step s = .next t → t.Inv

/-- The machine after reset meets the invariant; it is stopped, with no error, both streams empty and no memory cell
with a value (R24, R28, R29, R280). -/
def Obligations.ResetMeetsTheInvariant : Prop :=
  State.reset.Inv ∧ State.reset.running = false ∧ State.reset.fault = none ∧ State.reset.trace = [] ∧
  State.reset.out = [] ∧ ∀ a, State.reset.mem.read a = none

/-! ### Reset and the host's operations -/

/-- A new machine (R280): RUN is false, FAULT is none, both streams are empty, and each item has the given value,
reduced to its width, or none (the spec's decisions D17 and D18). The statement leaves IR open (R25). -/
def Obligations.NewMachineIsAsLaunched : Prop :=
  ∀ init : InitialState,
    (launch init).running = false ∧ (launch init).fault = none ∧ (launch init).trace = [] ∧ (launch init).out = [] ∧
    (∀ v, init.ac = some v → ((launch init).ac.map BitVec.toNat) = some (v % 4096)) ∧
    (init.ac = none → (launch init).ac = none) ∧
    (∀ v, init.pc = some v → ((launch init).pc.map BitVec.toNat) = some (v % 4096)) ∧
    (init.pc = none → (launch init).pc = none) ∧
    (∀ v, init.link = some v → ((launch init).link.map Bool.toNat) = some (v % 2)) ∧
    (init.link = none → (launch init).link = none) ∧
    (∀ v, init.pf = some v → ((launch init).pf.map Bool.toNat) = some (v % 2)) ∧
    (init.pf = none → (launch init).pf = none) ∧
    (∀ a, a ∉ init.mem.map Prod.fst → (launch init).mem.read a = none) ∧
    (∀ a v, (init.mem.map Prod.fst).Nodup → (a, v) ∈ init.mem →
      ((launch init).mem.read a).map BitVec.toNat = some (v % 4096)) ∧
    (launch init).mem.wf

/-- Host store and load (R57): the round trip masks, nothing but the cell changes, and an address above 4095 is
refused (the spec's decisions D19 and D34); that a faulted machine accepts a store is the model's choice, log entry
24. -/
def Obligations.HostStoreThenLoad : Prop :=
  ∀ (s : State) (addr w : Nat),
    (addr < 4096 → ∃ t v, hostStore addr w s = .next t ∧ hostLoad addr t = .ok (some v) ∧ v.toNat = w % 4096 ∧
      (∀ b, b.toNat ≠ addr → t.mem.read b = s.mem.read b) ∧ t = { s with mem := t.mem }) ∧
    (4096 ≤ addr → hostStore addr w s = .refused .hostAddressOutOfRange ∧
      hostLoad addr s = .error .hostAddressOutOfRange)

/-- The wholesale load (R58): every cell holds the image's word, nothing but memory changes, memory is canonical
(the zero fill is the spec's decision D29; that a faulted machine accepts it is the model's choice, log entry 24). -/
def Obligations.LoadImageReplacesEveryCell : Prop :=
  ∀ (img : Image) (s : State),
    (∀ a, (hostLoadImage img s).mem.read a = some (img.word a)) ∧ (hostLoadImage img s).mem.wf ∧
    hostLoadImage img s = { s with mem := (hostLoadImage img s).mem }

/-- The run command (R100, R281): RUN is set and PC seeded, and nothing else that the spec names changes; the call's
`stepping` argument is recorded in the state, which is the model's choice, log entry 10; refused on a faulted machine and for a start above 4095 (the spec's decisions D18 and D36). -/
def Obligations.RunCommand : Prop :=
  ∀ (s : State) (stepping : Bool),
    (s.fault ≠ none → ∀ start, hostRun start stepping s = .refused .runOnFaultedMachine) ∧
    (s.fault = none → hostRun none stepping s = .next { s with running := true, stepping := stepping } ∧
      ∀ start, (start < 4096 → hostRun (some start) stepping s =
          .next { s with running := true, stepping := stepping, pc := some (BitVec.ofNat 12 start) }) ∧
        (4096 ≤ start → hostRun (some start) stepping s = .refused .startOutOfRange))

/-- A run call that returns ends in one of three ways, told from the final state (R109, R112; how it is told is the
model's reading, log entry 23): halted, stepped or faulted, with FAULT set exactly in the last. Of a run without an error
from a state that meets the invariant, the last step's word decides: the end is halted exactly where that word had the
HLT bit, in a stepped run too, and stepped exactly where the run was stepped and it had not. -/
def Obligations.EveryRunEndsInOneOfThreeWays : Prop :=
  (∀ (fuel : Nat) (s t : State), s.running = true → s.fault = none → runLoop fuel s = some t →
    t.running = false ∧ ∃ e, t.runEnd = some e ∧ (e = .faulted ↔ t.fault ≠ none) ∧
      (e = .stepped → s.stepping = true)) ∧
  ∀ (fuel : Nat) (s t : State), s.Inv → s.running = true → s.fault = none → runLoop fuel s = some t → t.fault = none →
    ∃ n u a w, Sys2Proof.Rules.afterSteps n s = some u ∧ step u = .next t ∧ u.pc = some a ∧ u.mem.read a = some w ∧
      (t.runEnd = some .halted ↔ Sys2Proof.Rules.hasHltBit w = true) ∧
      (t.runEnd = some .stepped ↔ s.stepping = true ∧ Sys2Proof.Rules.hasHltBit w = false)

/-! ### The assembler -/

/-- The memory-reference word (R222): for each of the six mnemonics it decodes to that instruction with the line's I
and the target's low bits, and the page fault (R227) is exactly for a target off the line's page and not below 0o200,
without Z (the masking by Z and the check with I are the spec's decisions D25 and D26). -/
def Obligations.MemoryReferenceWordDecodes : Prop :=
  (∀ (i z : Bool) (v ic w : Word) (text : Line),
    ∀ c ∈ [(0o0000#12, Instr.and), (0o1000#12, Instr.tad), (0o2000#12, Instr.isz), (0o3000#12, Instr.dca),
      (0o4000#12, Instr.jms), (0o5000#12, Instr.jmp)],
      memRefWord c.1 i z v ic text = .ok w →
        decode w = c.2 i (z || v.toNat / 128 != ic.toNat / 128) (v.extractLsb' 0 7)) ∧
  ∀ (base v ic : Word) (i z : Bool) (text : Line),
    memRefWord base i z v ic text = .error (.pageFaultError text) ↔
      z = false ∧ v.toNat / 128 ≠ ic.toNat / 128 ∧ 0o200 ≤ v.toNat

/-- The assembler and the CPU agree on the page (70_reset_and_hazards R285; the spec's decision D3): a word
assembled without Z for the target `v` at `ic`, and fetched from `ic`, resolves to `v`, or with I to the word that
`v` holds. -/
def Obligations.AssembledTargetIsTheEffectiveAddress : Prop :=
  ∀ (i : Bool) (base v ic w : Word) (text : Line) (s : State), base ∈ memRefTable.map Prod.snd →
    memRefWord base i false v ic text = .ok w → s.pc = some (ic + 1#12) →
      s.resolve (w.getLsbD 8) (w.getLsbD 7) (w.extractLsb' 0 7) = if i then s.memRead v else .ok v

/-- The operate word depends neither on the order of the mnemonics nor on repetition (R223). -/
def Obligations.OperateWordIgnoresOrderAndRepetition : Prop :=
  ∀ values values' : List Word, (∀ v, v ∈ values ↔ v ∈ values') → operateWord values = operateWord values'

/-- A SyntaxError comes before any error of pass 2 (R226, R267, which the spec derives from the
passes): it names the first line that matches no shape, and
another error means that every line matched one. -/
def Obligations.SyntaxErrorsComeFirst : Prop :=
  ∀ (source : List Line) (e : AsmError), assemble source = .error e →
    (∀ text, e = .syntaxError text → ∃ before after, source = before ++ text :: after ∧
      prepareLine text ≠ [] ∧ classify (prepareLine text) = none ∧
      ∀ l ∈ before, prepareLine l = [] ∨ classify (prepareLine l) ≠ none) ∧
    ((∀ text, e ≠ .syntaxError text) → ∀ l ∈ source, prepareLine l = [] ∨ classify (prepareLine l) ≠ none)

/-- The last definition of a label wins, and defines nothing else (R220; 93 U10 flags it as an assumption, log
entry 22): after pass 1, SYM holds for each label the counter at its last labelled line, and no other name; pass 1 ends
with the counter that its lines lead to from 0 (the start at 0 is the spec's decision D28). -/
def Obligations.LastDefinitionWins : Prop :=
  (∀ (sym : SymTab) (name other : SymName) (v : Word),
    SymTab.value (SymTab.define sym name v) name = some v ∧
    (other ≠ name → SymTab.value (SymTab.define sym name v) other = SymTab.value sym other)) ∧
  (∀ (before after : List Stmt) (st : Stmt) (name : SymName), Sys2Proof.Rules.defines name st = true →
    (∀ later ∈ after, Sys2Proof.Rules.defines name later = false) →
      SymTab.value (pass1 (before ++ st :: after)).sym name = some (Sys2Proof.Rules.counterAfter 0#12 before)) ∧
  (∀ (stmts : List Stmt) (name : SymName), (∀ st ∈ stmts, Sys2Proof.Rules.defines name st = false) →
    SymTab.value (pass1 stmts).sym name = none) ∧
  ∀ stmts : List Stmt, (pass1 stmts).ic = Sys2Proof.Rules.counterAfter 0#12 stmts

/-- Pass 2 (R221; the counter's start at 0 and the zero fill are the spec's decisions D28 and D29): an address that no
line planted holds 0 in the image, and one that a line planted, and no later line, holds that line's word: the constant,
the zero of a bare label, the operate word (R223), or the memory-reference word of the value of its expression (R213,
R222). What `assemble` answers is pass 1's SYM and pass 2's image of the source's lines (R210, R229). -/
def Obligations.ImageHoldsThePlantedWords : Prop :=
  (∀ (sym : SymTab) (stmts : List Stmt) (img : Image) (a : Word),
    pass2 sym 0#12 { planted := [] } stmts = .ok img → a ∉ Sys2Proof.Rules.plantedFrom 0#12 stmts →
      img.word a = 0#12) ∧
  (∀ (sym : SymTab) (before after : List Stmt) (st : Stmt) (img : Image),
    pass2 sym 0#12 { planted := [] } (before ++ st :: after) = .ok img →
      let ic := Sys2Proof.Rules.counterAfter 0#12 before
      ic ∉ Sys2Proof.Rules.plantedFrom (Sys2Proof.Rules.counterAfter ic [st]) after →
        match st.shape with
        | .org _ => True
        | .constant n => img.word ic = n
        | .reserve => img.word ic = 0#12
        | .operate values => img.word ic = operateWord values
        | .memRef base i z e =>
          ∃ v, evalExpr sym ic st.text e = .ok v ∧ memRefWord base i z v ic st.text = .ok (img.word ic)) ∧
  ∀ (source : List Line) (img : Image) (sym : SymTab), assemble source = .ok (img, sym) →
    ∃ stmts, parseSource source = .ok stmts ∧ sym = (pass1 stmts).sym ∧
      pass2 sym 0#12 { planted := [] } stmts = .ok img

end
end

