-- ==== Sys2Proof/Laws/Decode.lean ====
section
/-! SUPPORT. The decoder over all words: each decodes to a well-formed instruction whose word it is (30_encoding R68). -/

namespace Sys2Proof

/-- Every word decodes to a well-formed instruction, and that instruction encodes to the word. -/
theorem decode_wf_and_encode : ∀ w : Word, (decode w).wf = true ∧ encode (decode w) = w := by decide +kernel

theorem decode_wf (w : Word) : (decode w).wf = true := (decode_wf_and_encode w).1

theorem encode_decode (w : Word) : encode (decode w) = w := (decode_wf_and_encode w).2

/-- No two words decode to one instruction. -/
theorem decode_injective : Function.Injective decode := fun v w h => by
  rw [← encode_decode v, h, encode_decode w]

end Sys2Proof
end

