-- ==== Sys2Proof/Laws/Memory.lean ====
section
/-! SUPPORT. The laws of the memory: a read after a write, and that a write keeps the canonical form. -/

namespace Sys2Proof.Machine

theorem lookup_insert_self (m : Memory) (k : Nat) (v : Word) : (m.insert k v).lookup k = some v := by
  induction m with
  | nil => simp [Memory.insert, Memory.lookup]
  | cons c m ih =>
    obtain ⟨k', v'⟩ := c
    simp only [Memory.insert]
    split
    · simp [Memory.lookup]
    · split
      · simp [Memory.lookup]
      · simp [Memory.lookup, *]

theorem lookup_insert_ne (m : Memory) {k j : Nat} (v : Word) (h : j ≠ k) :
    (m.insert k v).lookup j = m.lookup j := by
  induction m with
  | nil => simp [Memory.insert, Memory.lookup, h]
  | cons c m ih =>
    obtain ⟨k', v'⟩ := c
    simp only [Memory.insert]
    split
    · simp [Memory.lookup, h]
    · split
      · subst k'; simp [Memory.lookup, h]
      · simp [Memory.lookup, ih]

@[simp] theorem read_write_same (m : Memory) (a v : Word) : (m.write a v).read a = some v :=
  lookup_insert_self m a.toNat v

theorem read_write_ne (m : Memory) {a b : Word} (v : Word) (h : b ≠ a) : (m.write a v).read b = m.read b :=
  lookup_insert_ne m v (fun e => h (BitVec.eq_of_toNat_eq e))

theorem read_write (m : Memory) (a b v : Word) : (m.write a v).read b = if b = a then some v else m.read b := by
  split
  · subst b; simp
  · exact read_write_ne m v ‹_›

/-- The cells of an insertion are the new one and old ones. -/
theorem mem_insert {m : Memory} {k : Nat} {v : Word} {c : Nat × Word} (h : c ∈ m.insert k v) :
    c = (k, v) ∨ c ∈ m := by
  induction m with
  | nil => simpa [Memory.insert] using h
  | cons d m ih =>
    obtain ⟨k', v'⟩ := d
    simp only [Memory.insert] at h
    split at h
    · simpa using h
    · split at h
      · rcases List.mem_cons.mp h with h | h
        · exact .inl h
        · exact .inr (List.mem_cons_of_mem _ h)
      · rcases List.mem_cons.mp h with h | h
        · exact .inr (h ▸ List.mem_cons_self)
        · exact (ih h).imp_right (List.mem_cons_of_mem _)

/-- A write keeps the canonical form. -/
theorem write_wf {m : Memory} (h : m.wf) (a v : Word) : (m.write a v).wf := by
  refine ⟨?_, fun c hc => (mem_insert hc).elim (fun e => e ▸ a.isLt) (h.2 c)⟩
  have sorted := h.1
  show ((m.insert a.toNat v).map Prod.fst).Pairwise (· < ·)
  generalize a.toNat = k
  clear h
  induction m with
  | nil => simp [Memory.insert]
  | cons c m ih =>
    obtain ⟨k', v'⟩ := c
    simp only [List.map_cons, List.pairwise_cons] at sorted
    simp only [Memory.insert]
    split
    · rename_i lt
      simp only [List.map_cons, List.pairwise_cons, List.mem_cons]
      refine ⟨?_, sorted⟩
      rintro x (rfl | hx)
      · exact lt
      · exact lt.trans (sorted.1 x hx)
    · split
      · subst k'; simpa only [List.map_cons, List.pairwise_cons] using sorted
      · rename_i nlt ne
        simp only [List.map_cons, List.pairwise_cons]
        refine ⟨fun x hx => ?_, ih sorted.2⟩
        obtain ⟨c, hc, rfl⟩ := List.mem_map.mp hx
        rcases mem_insert hc with rfl | hc
        · simp only; omega
        · exact sorted.1 _ (List.mem_map_of_mem hc)

end Sys2Proof.Machine
end

