-- ==== Sys2Proof/Laws/State.lean ====
section
/-! SUPPORT. One lemma per field per named update of the state (Machine/Ops.lean), so that no proof unfolds a record
update. -/

namespace Sys2Proof.Machine

section
variable (s : State) (v : Word)

@[simp] theorem State.setAc_ac : (s.setAc v).ac = some v := rfl
@[simp] theorem State.setAc_link : (s.setAc v).link = s.link := rfl
@[simp] theorem State.setAc_pc : (s.setAc v).pc = s.pc := rfl
@[simp] theorem State.setAc_ir : (s.setAc v).ir = s.ir := rfl
@[simp] theorem State.setAc_running : (s.setAc v).running = s.running := rfl
@[simp] theorem State.setAc_pf : (s.setAc v).pf = s.pf := rfl
@[simp] theorem State.setAc_mem : (s.setAc v).mem = s.mem := rfl
@[simp] theorem State.setAc_fault : (s.setAc v).fault = s.fault := rfl
@[simp] theorem State.setAc_trace : (s.setAc v).trace = s.trace := rfl
@[simp] theorem State.setAc_out : (s.setAc v).out = s.out := rfl
@[simp] theorem State.setAc_stepping : (s.setAc v).stepping = s.stepping := rfl
@[simp] theorem State.setAc_draws : (s.setAc v).draws = s.draws := rfl

end

section
variable (s : State) (b : Bool)

@[simp] theorem State.setLink_ac : (s.setLink b).ac = s.ac := rfl
@[simp] theorem State.setLink_link : (s.setLink b).link = some b := rfl
@[simp] theorem State.setLink_pc : (s.setLink b).pc = s.pc := rfl
@[simp] theorem State.setLink_ir : (s.setLink b).ir = s.ir := rfl
@[simp] theorem State.setLink_running : (s.setLink b).running = s.running := rfl
@[simp] theorem State.setLink_pf : (s.setLink b).pf = s.pf := rfl
@[simp] theorem State.setLink_mem : (s.setLink b).mem = s.mem := rfl
@[simp] theorem State.setLink_fault : (s.setLink b).fault = s.fault := rfl
@[simp] theorem State.setLink_trace : (s.setLink b).trace = s.trace := rfl
@[simp] theorem State.setLink_out : (s.setLink b).out = s.out := rfl
@[simp] theorem State.setLink_stepping : (s.setLink b).stepping = s.stepping := rfl
@[simp] theorem State.setLink_draws : (s.setLink b).draws = s.draws := rfl

end

section
variable (s : State) (v : Word)

@[simp] theorem State.setPc_ac : (s.setPc v).ac = s.ac := rfl
@[simp] theorem State.setPc_link : (s.setPc v).link = s.link := rfl
@[simp] theorem State.setPc_pc : (s.setPc v).pc = some v := rfl
@[simp] theorem State.setPc_ir : (s.setPc v).ir = s.ir := rfl
@[simp] theorem State.setPc_running : (s.setPc v).running = s.running := rfl
@[simp] theorem State.setPc_pf : (s.setPc v).pf = s.pf := rfl
@[simp] theorem State.setPc_mem : (s.setPc v).mem = s.mem := rfl
@[simp] theorem State.setPc_fault : (s.setPc v).fault = s.fault := rfl
@[simp] theorem State.setPc_trace : (s.setPc v).trace = s.trace := rfl
@[simp] theorem State.setPc_out : (s.setPc v).out = s.out := rfl
@[simp] theorem State.setPc_stepping : (s.setPc v).stepping = s.stepping := rfl
@[simp] theorem State.setPc_draws : (s.setPc v).draws = s.draws := rfl

end

section
variable (s : State) (b : Bool)

@[simp] theorem State.setPf_ac : (s.setPf b).ac = s.ac := rfl
@[simp] theorem State.setPf_link : (s.setPf b).link = s.link := rfl
@[simp] theorem State.setPf_pc : (s.setPf b).pc = s.pc := rfl
@[simp] theorem State.setPf_ir : (s.setPf b).ir = s.ir := rfl
@[simp] theorem State.setPf_running : (s.setPf b).running = s.running := rfl
@[simp] theorem State.setPf_pf : (s.setPf b).pf = some b := rfl
@[simp] theorem State.setPf_mem : (s.setPf b).mem = s.mem := rfl
@[simp] theorem State.setPf_fault : (s.setPf b).fault = s.fault := rfl
@[simp] theorem State.setPf_trace : (s.setPf b).trace = s.trace := rfl
@[simp] theorem State.setPf_out : (s.setPf b).out = s.out := rfl
@[simp] theorem State.setPf_stepping : (s.setPf b).stepping = s.stepping := rfl
@[simp] theorem State.setPf_draws : (s.setPf b).draws = s.draws := rfl

end

section
variable (s : State) (b : Bool)

@[simp] theorem State.setRunning_ac : (s.setRunning b).ac = s.ac := rfl
@[simp] theorem State.setRunning_link : (s.setRunning b).link = s.link := rfl
@[simp] theorem State.setRunning_pc : (s.setRunning b).pc = s.pc := rfl
@[simp] theorem State.setRunning_ir : (s.setRunning b).ir = s.ir := rfl
@[simp] theorem State.setRunning_running : (s.setRunning b).running = b := rfl
@[simp] theorem State.setRunning_pf : (s.setRunning b).pf = s.pf := rfl
@[simp] theorem State.setRunning_mem : (s.setRunning b).mem = s.mem := rfl
@[simp] theorem State.setRunning_fault : (s.setRunning b).fault = s.fault := rfl
@[simp] theorem State.setRunning_trace : (s.setRunning b).trace = s.trace := rfl
@[simp] theorem State.setRunning_out : (s.setRunning b).out = s.out := rfl
@[simp] theorem State.setRunning_stepping : (s.setRunning b).stepping = s.stepping := rfl
@[simp] theorem State.setRunning_draws : (s.setRunning b).draws = s.draws := rfl

end

section
variable (s : State) (e : TraceEvent)

@[simp] theorem State.emit_ac : (s.emit e).ac = s.ac := rfl
@[simp] theorem State.emit_link : (s.emit e).link = s.link := rfl
@[simp] theorem State.emit_pc : (s.emit e).pc = s.pc := rfl
@[simp] theorem State.emit_ir : (s.emit e).ir = s.ir := rfl
@[simp] theorem State.emit_running : (s.emit e).running = s.running := rfl
@[simp] theorem State.emit_pf : (s.emit e).pf = s.pf := rfl
@[simp] theorem State.emit_mem : (s.emit e).mem = s.mem := rfl
@[simp] theorem State.emit_fault : (s.emit e).fault = s.fault := rfl
@[simp] theorem State.emit_trace : (s.emit e).trace = s.trace ++ [e] := rfl
@[simp] theorem State.emit_out : (s.emit e).out = s.out := rfl
@[simp] theorem State.emit_stepping : (s.emit e).stepping = s.stepping := rfl
@[simp] theorem State.emit_draws : (s.emit e).draws = s.draws := rfl

end

section
variable (s : State) (v : Word)

@[simp] theorem State.punch_ac : (s.punch v).ac = s.ac := rfl
@[simp] theorem State.punch_link : (s.punch v).link = s.link := rfl
@[simp] theorem State.punch_pc : (s.punch v).pc = s.pc := rfl
@[simp] theorem State.punch_ir : (s.punch v).ir = s.ir := rfl
@[simp] theorem State.punch_running : (s.punch v).running = s.running := rfl
@[simp] theorem State.punch_pf : (s.punch v).pf = s.pf := rfl
@[simp] theorem State.punch_mem : (s.punch v).mem = s.mem := rfl
@[simp] theorem State.punch_fault : (s.punch v).fault = s.fault := rfl
@[simp] theorem State.punch_trace : (s.punch v).trace = s.trace := rfl
@[simp] theorem State.punch_out : (s.punch v).out = s.out ++ [v] := rfl
@[simp] theorem State.punch_stepping : (s.punch v).stepping = s.stepping := rfl
@[simp] theorem State.punch_draws : (s.punch v).draws = s.draws := rfl

end

section
variable (s : State) (a v : Word)

@[simp] theorem State.setMem_ac : (s.setMem a v).ac = s.ac := rfl
@[simp] theorem State.setMem_link : (s.setMem a v).link = s.link := rfl
@[simp] theorem State.setMem_pc : (s.setMem a v).pc = s.pc := rfl
@[simp] theorem State.setMem_ir : (s.setMem a v).ir = s.ir := rfl
@[simp] theorem State.setMem_running : (s.setMem a v).running = s.running := rfl
@[simp] theorem State.setMem_pf : (s.setMem a v).pf = s.pf := rfl
@[simp] theorem State.setMem_mem : (s.setMem a v).mem = s.mem.write a v := rfl
@[simp] theorem State.setMem_fault : (s.setMem a v).fault = s.fault := rfl
@[simp] theorem State.setMem_trace : (s.setMem a v).trace = s.trace := rfl
@[simp] theorem State.setMem_out : (s.setMem a v).out = s.out := rfl
@[simp] theorem State.setMem_stepping : (s.setMem a v).stepping = s.stepping := rfl
@[simp] theorem State.setMem_draws : (s.setMem a v).draws = s.draws := rfl

end

section
variable (s : State) (a v : Word)

@[simp] theorem State.memWrite_ac : (s.memWrite a v).ac = s.ac := rfl
@[simp] theorem State.memWrite_link : (s.memWrite a v).link = s.link := rfl
@[simp] theorem State.memWrite_pc : (s.memWrite a v).pc = s.pc := rfl
@[simp] theorem State.memWrite_ir : (s.memWrite a v).ir = s.ir := rfl
@[simp] theorem State.memWrite_running : (s.memWrite a v).running = s.running := rfl
@[simp] theorem State.memWrite_pf : (s.memWrite a v).pf = s.pf := rfl
@[simp] theorem State.memWrite_mem : (s.memWrite a v).mem = s.mem.write a v := rfl
@[simp] theorem State.memWrite_fault : (s.memWrite a v).fault = s.fault := rfl
@[simp] theorem State.memWrite_trace : (s.memWrite a v).trace = s.trace ++ [.memoryWrite a v] := rfl
@[simp] theorem State.memWrite_out : (s.memWrite a v).out = s.out := rfl
@[simp] theorem State.memWrite_stepping : (s.memWrite a v).stepping = s.stepping := rfl
@[simp] theorem State.memWrite_draws : (s.memWrite a v).draws = s.draws := rfl

end

section
variable (s : State)

@[simp] theorem State.countDraw_ac : s.countDraw.ac = s.ac := rfl
@[simp] theorem State.countDraw_link : s.countDraw.link = s.link := rfl
@[simp] theorem State.countDraw_pc : s.countDraw.pc = s.pc := rfl
@[simp] theorem State.countDraw_ir : s.countDraw.ir = s.ir := rfl
@[simp] theorem State.countDraw_running : s.countDraw.running = s.running := rfl
@[simp] theorem State.countDraw_pf : s.countDraw.pf = s.pf := rfl
@[simp] theorem State.countDraw_mem : s.countDraw.mem = s.mem := rfl
@[simp] theorem State.countDraw_fault : s.countDraw.fault = s.fault := rfl
@[simp] theorem State.countDraw_trace : s.countDraw.trace = s.trace := rfl
@[simp] theorem State.countDraw_out : s.countDraw.out = s.out := rfl
@[simp] theorem State.countDraw_stepping : s.countDraw.stepping = s.stepping := rfl
@[simp] theorem State.countDraw_draws : s.countDraw.draws = s.draws + 1 := rfl

end

section
variable (s : State) (e : ErrorRecord)

@[simp] theorem State.fatal_ac : (s.fatal e).ac = s.ac := rfl
@[simp] theorem State.fatal_link : (s.fatal e).link = s.link := rfl
@[simp] theorem State.fatal_pc : (s.fatal e).pc = s.pc := rfl
@[simp] theorem State.fatal_ir : (s.fatal e).ir = s.ir := rfl
@[simp] theorem State.fatal_running : (s.fatal e).running = false := rfl
@[simp] theorem State.fatal_pf : (s.fatal e).pf = s.pf := rfl
@[simp] theorem State.fatal_mem : (s.fatal e).mem = s.mem := rfl
@[simp] theorem State.fatal_fault : (s.fatal e).fault = some e := rfl
@[simp] theorem State.fatal_trace : (s.fatal e).trace = s.trace := rfl
@[simp] theorem State.fatal_out : (s.fatal e).out = s.out := rfl
@[simp] theorem State.fatal_stepping : (s.fatal e).stepping = s.stepping := rfl
@[simp] theorem State.fatal_draws : (s.fatal e).draws = s.draws := rfl

end

section
variable (s : State)

@[simp] theorem State.untraced_ac : s.untraced.ac = s.ac := rfl
@[simp] theorem State.untraced_link : s.untraced.link = s.link := rfl
@[simp] theorem State.untraced_pc : s.untraced.pc = s.pc := rfl
@[simp] theorem State.untraced_ir : s.untraced.ir = s.ir := rfl
@[simp] theorem State.untraced_running : s.untraced.running = s.running := rfl
@[simp] theorem State.untraced_pf : s.untraced.pf = s.pf := rfl
@[simp] theorem State.untraced_mem : s.untraced.mem = s.mem := rfl
@[simp] theorem State.untraced_fault : s.untraced.fault = s.fault := rfl
@[simp] theorem State.untraced_trace : s.untraced.trace = [] := rfl
@[simp] theorem State.untraced_out : s.untraced.out = s.out := rfl
@[simp] theorem State.untraced_stepping : s.untraced.stepping = s.stepping := rfl
@[simp] theorem State.untraced_draws : s.untraced.draws = s.draws := rfl

end

end Sys2Proof.Machine
end

