-- ==== Sys2Proof/Laws/Ops.lean ====
section
/-! SUPPORT. One lemma per shared operation that says everything it can do; proofs cite these and do not unfold the
operations. -/

namespace Sys2Proof.Machine

open Sys2Proof

/-! ### Reads -/

theorem readItem_eq_ok {α : Type} {o : Option α} {item : Item} {v : α} : readItem o item = .ok v ↔ o = some v := by
  cases o <;> simp [readItem]

@[simp] theorem readItem_some {α : Type} (v : α) (item : Item) : readItem (some v) item = .ok v := rfl

@[simp] theorem readItem_none {α : Type} (item : Item) : readItem (none : Option α) item = .error item := rfl

theorem readAc_ok {s : State} {v : Word} : s.readAc = .ok v ↔ s.ac = some v := readItem_eq_ok

theorem readLink_ok {s : State} {b : Bool} : s.readLink = .ok b ↔ s.link = some b := readItem_eq_ok

theorem readPc_ok {s : State} {v : Word} : s.readPc = .ok v ↔ s.pc = some v := readItem_eq_ok

theorem readPf_ok {s : State} {b : Bool} : s.readPf = .ok b ↔ s.pf = some b := readItem_eq_ok

theorem memRead_ok {s : State} {a v : Word} : s.memRead a = .ok v ↔ s.mem.read a = some v := readItem_eq_ok

/-! ### Sequencing -/

/-- A sequence succeeds exactly when both parts do. -/
theorem bind_ok {α β : Type} {x : Except Item α} {f : α → Except Item β} {b : β} :
    (x >>= f) = .ok b ↔ ∃ a, x = .ok a ∧ f a = .ok b := by
  cases x <;> simp [bind, Except.bind]

@[simp] theorem ok_bind {α β : Type} (a : α) (f : α → Except Item β) : ((Except.ok a : Except Item α) >>= f) = f a := rfl

@[simp] theorem error_bind {α β : Type} (e : Item) (f : α → Except Item β) :
    ((Except.error e : Except Item α) >>= f) = .error e := rfl

theorem pure_ok {α : Type} {a b : α} : (pure a : Except Item α) = .ok b ↔ a = b := by
  constructor
  · intro h; cases h; rfl
  · rintro rfl; rfl

/-! ### The skip, the end of a handler, the fetch -/

/-- All that a skip can do. -/
theorem skip_ok {s t : State} : s.skip = .ok t ↔ ∃ pc, s.pc = some pc ∧ t = s.setPc (pc + 1#12) := by
  simp only [State.skip, bind_ok, readPc_ok, pure_ok]
  exact exists_congr fun pc => and_congr_right fun _ => eq_comm

/-- All that the end of a handler can do: it always answers a next state. -/
theorem conclude_next {s t : State} {r : Except Item State} :
    s.conclude r = .next t ↔
      r = .ok t ∨ ∃ item, r = .error item ∧ t = s.fatal (.unwrittenRead s.instrAddr item) := by
  cases r <;> simp [State.conclude, eq_comm]

@[simp] theorem conclude_ok (s t : State) : s.conclude (.ok t) = .next t := rfl

@[simp] theorem conclude_error (s : State) (item : Item) :
    s.conclude (.error item) = .next (s.fatal (.unwrittenRead s.instrAddr item)) := rfl

/-- A handler whose state has every register answers from its result alone. -/
theorem conclude_of_ok {s t : State} {r : Except Item State} (h : r = .ok t) : s.conclude r = .next t := by
  rw [h, conclude_ok]

/-- All that a fetch that succeeds can do. -/
theorem fetch_ok {s t : State} {a : Word} :
    s.fetch = .ok (a, t) ↔
      ∃ w, s.pc = some a ∧ s.mem.read a = some w ∧ t = { s with ir := w, pc := some (a + 1#12) } := by
  unfold State.fetch
  constructor
  · intro h
    split at h
    · cases h
    · split at h
      · cases h
      · cases h
        exact ⟨_, ‹_›, ‹_›, rfl⟩
  · rintro ⟨w, hpc, hw, rfl⟩
    simp [hpc, hw]

/-- All that a fetch that fails can do. -/
theorem fetch_error {s t : State} (h : s.fetch = .error t) :
    (s.pc = none ∧ t = s.fatal (.unwrittenRead none .pc)) ∨
      ∃ a, s.pc = some a ∧ s.mem.read a = none ∧ t = s.fatal (.unwrittenRead (some a) (.mem a)) := by
  unfold State.fetch at h
  split at h
  · exact .inl ⟨‹_›, by cases h; rfl⟩
  · split at h
    · exact .inr ⟨_, ‹_›, ‹_›, by cases h; rfl⟩
    · cases h

/-! ### The resolver -/

/-- The instruction address of a handler that begins after the fetch at `a`. -/
theorem instrAddr_of_pc {s : State} {a : Word} (h : s.pc = some (a + 1#12)) : s.instrAddr = some a := by
  simp [State.instrAddr, h]

/-- All that finding the intermediate address can do. -/
theorem baseAddress_ok {s : State} {z : Bool} {off : Offset} {b : Word} :
    s.baseAddress z off = .ok b ↔
      (z = true ∧ b = off.setWidth 12) ∨
      (z = false ∧ ∃ a, s.instrAddr = some a ∧ b = pageBase a ||| off.setWidth 12) := by
  cases z
  · simp only [State.baseAddress, Bool.false_eq_true, if_false, false_and, false_or, true_and, bind_ok, readItem_eq_ok,
      pure_ok, intermediateAddress]
    exact exists_congr fun a => and_congr_right fun _ => eq_comm
  · simp [State.baseAddress, intermediateAddress, eq_comm]

/-- All that the resolver can do. -/
theorem resolve_ok {s : State} {i z : Bool} {off : Offset} {ea : Word} :
    s.resolve i z off = .ok ea ↔
      ∃ b, s.baseAddress z off = .ok b ∧ if i then s.mem.read b = some ea else ea = b := by
  cases i
  · simp only [State.resolve, bind_ok, Bool.false_eq_true, if_false, pure_ok]
    exact exists_congr fun b => and_congr_right fun _ => eq_comm
  · simp only [State.resolve, bind_ok, if_true, memRead_ok]

/-! ### The end of a step -/

/-- The InstructionExecuted event changes TRACE alone. -/
theorem emitExecuted_cases (s : State) (a : Word) :
    (s.fault = none ∧ s.emitExecuted a = s.emit (.instructionExecuted a s.ir s.ac s.link s.pc)) ∨
      (s.fault ≠ none ∧ s.emitExecuted a = s) := by
  unfold State.emitExecuted
  cases h : s.fault <;> simp

/-- The end of a stepped run changes RUN alone. -/
theorem endStepping_cases (s : State) :
    (s.stepping = true ∧ s.endStepping = s.setRunning false) ∨ (s.stepping = false ∧ s.endStepping = s) := by
  unfold State.endStepping
  cases h : s.stepping <;> simp

/-- The state of reset is the machine launched with 0 for each register and no memory (log entry 1). -/
theorem reset_eq_launch :
    State.reset = launch { ac := some 0, link := some 0, pc := some 0, pf := some 0, mem := [] } := by decide

end Sys2Proof.Machine
end

