-- ==== Sys2Proof/Laws/Exec.lean ====
section
/-! SUPPORT. What one instruction can do, said once for all of them (10_state R31): it ends in the fatal stop of the
state it began in, or it has an `Effect` on it. Proofs about every instruction cite `exec_effect`. -/

namespace Sys2Proof.Machine

open Sys2Proof

/-- Every instruction that completes leaves IR, FAULT and the `stepping` argument alone, sends or traces at most one
thing, writes at most one word of memory, and takes no item's value away. -/
structure Effect (s t : State) : Prop where
  ir : t.ir = s.ir
  fault : t.fault = s.fault
  stepping : t.stepping = s.stepping
  running : t.running = s.running ∨ (t.running = false ∧ ∃ pc, t.trace = s.trace ++ [.halt pc])
  trace : t.trace = s.trace ∨ (∃ pc, t.trace = s.trace ++ [.halt pc]) ∨
    ∃ a v, t.trace = s.trace ++ [.memoryWrite a v]
  out : t.out = s.out ∨ ∃ v, v ≠ 0#12 ∧ t.out = s.out ++ [v]
  mem : t.mem = s.mem ∨ ∃ a v, t.mem = s.mem.write a v
  ac : s.ac.isSome → t.ac.isSome
  link : s.link.isSome → t.link.isSome
  pc : s.pc.isSome → t.pc.isSome
  pf : s.pf.isSome → t.pf.isSome

theorem Effect.refl (s : State) : Effect s s :=
  ⟨rfl, rfl, rfl, .inl rfl, .inl rfl, .inl rfl, .inl rfl, id, id, id, id⟩

/-- A change of AC, L and the draw counter alone, which takes no value away: all that Group 1 does. -/
structure Group1Change (s t : State) : Prop where
  same : t = { s with ac := t.ac, link := t.link, draws := t.draws }
  ac : s.ac.isSome → t.ac.isSome
  link : s.link.isSome → t.link.isSome

theorem Group1Change.refl (s : State) : Group1Change s s := ⟨rfl, id, id⟩

theorem Group1Change.trans {s t u : State} (h : Group1Change s t) (k : Group1Change t u) : Group1Change s u :=
  ⟨by rw [k.same, h.same], k.ac ∘ h.ac, k.link ∘ h.link⟩

theorem Group1Change.effect {s t : State} (h : Group1Change s t) : Effect s t := by
  refine ⟨?_, ?_, ?_, .inl ?_, .inl ?_, .inl ?_, .inl ?_, h.ac, h.link, ?_, ?_⟩ <;> rw [h.same]
  · exact id
  · exact id

theorem microCla_change {s t : State} (h : microCla s = .ok t) : Group1Change s t := by
  cases h; exact ⟨rfl, fun _ => rfl, id⟩

theorem microCll_change {s t : State} (h : microCll s = .ok t) : Group1Change s t := by
  cases h; exact ⟨rfl, id, fun _ => rfl⟩

theorem microCma_change {s t : State} (h : microCma s = .ok t) : Group1Change s t := by
  simp only [microCma, bind_ok, pure_ok] at h
  obtain ⟨_, -, rfl⟩ := h
  exact ⟨rfl, fun _ => rfl, id⟩

theorem microCml_change {s t : State} (h : microCml s = .ok t) : Group1Change s t := by
  simp only [microCml, bind_ok, pure_ok] at h
  obtain ⟨_, -, rfl⟩ := h
  exact ⟨rfl, id, fun _ => rfl⟩

theorem microIac_change {s t : State} (h : microIac s = .ok t) : Group1Change s t := by
  simp only [microIac, bind_ok, pure_ok] at h
  obtain ⟨_, -, rfl⟩ := h
  exact ⟨rfl, fun _ => rfl, fun _ => rfl⟩

theorem microRar_change {s t : State} (h : microRar s = .ok t) : Group1Change s t := by
  simp only [microRar, bind_ok, pure_ok] at h
  obtain ⟨_, -, _, -, rfl⟩ := h
  exact ⟨rfl, fun _ => rfl, fun _ => rfl⟩

theorem microRal_change {s t : State} (h : microRal s = .ok t) : Group1Change s t := by
  simp only [microRal, bind_ok, pure_ok] at h
  obtain ⟨_, -, _, -, rfl⟩ := h
  exact ⟨rfl, fun _ => rfl, fun _ => rfl⟩

theorem microDraw_change {s t : State} (h : microDraw s = .ok t) : Group1Change s t := by
  simp only [microDraw, bind_ok, pure_ok] at h
  obtain ⟨_, -, _, -, rfl⟩ := h
  exact ⟨rfl, fun _ => rfl, fun _ => rfl⟩

theorem microIf_change {op : State → Except Item State} (hop : ∀ {s t}, op s = .ok t → Group1Change s t) {c : Bool}
    {s t : State} (h : microIf c op s = .ok t) : Group1Change s t := by
  cases c
  · cases h; exact .refl s
  · exact hop h

theorem microRepeat_change {op : State → Except Item State} (hop : ∀ {s t}, op s = .ok t → Group1Change s t)
    {two : Bool} {s t : State} (h : microRepeat two op s = .ok t) : Group1Change s t := by
  cases two
  · exact hop h
  · simp only [microRepeat, if_true, bind_ok] at h
    obtain ⟨_, h1, h2⟩ := h
    exact (hop h1).trans (hop h2)

theorem microRotate_change {g : Group1} {s t : State} (h : microRotate g s = .ok t) : Group1Change s t := by
  unfold microRotate at h
  split at h
  · cases h; exact .refl s
  · exact microRepeat_change microRar_change h
  · exact microRepeat_change microRal_change h
  · exact microDraw_change h

theorem group1Sequence_change {g : Group1} {s t : State} (h : group1Sequence g s = .ok t) : Group1Change s t := by
  simp only [group1Sequence, bind_ok] at h
  obtain ⟨_, h1, _, h2, _, h3, _, h4, _, h5, h6⟩ := h
  exact (microIf_change microCla_change h1).trans <| (microIf_change microCll_change h2).trans <|
    (microIf_change microCma_change h3).trans <| (microIf_change microCml_change h4).trans <|
    (microIf_change microIac_change h5).trans (microRotate_change h6)

theorem skip_effect {s t : State} (h : s.skip = .ok t) : Effect s t := by
  obtain ⟨_, -, rfl⟩ := skip_ok.1 h
  exact ⟨rfl, rfl, rfl, .inl rfl, .inl rfl, .inl rfl, .inl rfl, id, id, fun _ => rfl, id⟩

theorem skipIf_cases {c : Bool} {s t : State} (h : skipIf c s = .ok t) :
    (c = false ∧ t = s) ∨ (c = true ∧ ∃ pc, s.pc = some pc ∧ t = s.setPc (pc + 1#12)) := by
  cases c
  · cases h; exact .inl ⟨rfl, rfl⟩
  · exact .inr ⟨rfl, skip_ok.1 h⟩

theorem skipOn_effect {test : Except Item Bool} {s t : State} (h : skipOn test s = .ok t) : Effect s t := by
  simp only [skipOn, bind_ok] at h
  obtain ⟨_, -, h⟩ := h
  rcases skipIf_cases h with ⟨-, rfl⟩ | ⟨-, _, hpc, rfl⟩
  · exact .refl _
  · exact skip_effect (skip_ok.2 ⟨_, hpc, rfl⟩)

theorem microHlt_ok {s t : State} :
    microHlt s = .ok t ↔ ∃ pc, s.pc = some pc ∧ t = (s.emit (.halt pc)).setRunning false := by
  simp only [microHlt, bind_ok, readPc_ok, pure_ok]
  exact exists_congr fun pc => and_congr_right fun _ => eq_comm

theorem group2Sequence_effect {g : Group2} {s t : State} (h : group2Sequence g s = .ok t) : Effect s t := by
  simp only [group2Sequence, bind_ok] at h
  obtain ⟨_, -, u, hu, h⟩ := h
  have hu' : u = s ∨ ∃ pc, u = s.setPc pc :=
    (skipIf_cases hu).elim (fun k => .inl k.2) (fun k => .inr (k.2.elim fun _ k => ⟨_, k.2⟩))
  have hclear : clearIf g.cla u = u ∨ clearIf g.cla u = u.setAc 0#12 := by cases g.cla <;> simp [clearIf]
  have hfin : t = clearIf g.cla u ∨ ∃ pc, t = ((clearIf g.cla u).emit (.halt pc)).setRunning false := by
    split at h
    · obtain ⟨pc, -, rfl⟩ := microHlt_ok.1 h
      exact .inr ⟨pc, rfl⟩
    · exact .inl (pure_ok.1 h).symm
  rcases hfin with rfl | ⟨_, rfl⟩ <;> rcases hclear with e | e <;> rw [e] <;> rcases hu' with rfl | ⟨_, rfl⟩ <;>
    constructor <;> simp

theorem punch_effect {skip clear send : Bool} {s t : State}
    (h : (do let u ← punchSkip skip s; punchSend send (punchClear clear u)) = .ok t) : Effect s t := by
  simp only [bind_ok] at h
  obtain ⟨u, hu, h⟩ := h
  have hu' : u = s ∨ (∃ pc, u = s.setPc pc) ∨ ∃ pc, u = (s.setPc pc).setPf false := by
    cases skip
    · exact .inl (pure_ok.1 hu).symm
    · simp only [punchSkip, if_true, bind_ok] at hu
      obtain ⟨ready, -, hu⟩ := hu
      cases ready
      · exact .inl (pure_ok.1 hu).symm
      · simp only [if_true, bind_ok, skip_ok, pure_ok] at hu
        obtain ⟨_, ⟨pc, -, rfl⟩, rfl⟩ := hu
        cases Config.punchSkipClearsFlag
        · exact .inr (.inl ⟨_, rfl⟩)
        · exact .inr (.inr ⟨_, rfl⟩)
  have hsend : t = punchClear clear u ∨ t = (punchClear clear u).setPf true ∨
      ∃ v, v ≠ 0#12 ∧ t = ((punchClear clear u).punch v).setPf true := by
    cases send
    · exact .inl (pure_ok.1 h).symm
    · simp only [punchSend, if_true, bind_ok, pure_ok] at h
      obtain ⟨v, -, rfl⟩ := h
      split
      · exact .inr (.inl rfl)
      · exact .inr (.inr ⟨v, ‹_›, rfl⟩)
  have hclear : punchClear clear u = u ∨ punchClear clear u = u.setPf false := by cases clear <;> simp [punchClear]
  rcases hsend with rfl | rfl | ⟨v, hv, rfl⟩ <;> rcases hclear with e | e <;> rw [e] <;>
    rcases hu' with rfl | ⟨_, rfl⟩ | ⟨_, rfl⟩ <;> constructor <;> simp <;> exact hv

/-- A handler whose result has an effect ends in the fatal stop or with that effect. -/
theorem conclude_effect {s t : State} {r : Except Item State} (hr : ∀ u, r = .ok u → Effect s u)
    (h : s.conclude r = .next t) :
    (∃ item, t = s.fatal (.unwrittenRead s.instrAddr item)) ∨ Effect s t :=
  (conclude_next.1 h).elim (fun k => .inr (hr t k)) fun ⟨_, _, k⟩ => .inl ⟨_, k⟩

/-- A store of one word, with a new PC, a new AC or neither: the effect of ISZ, JMS and DCA. -/
theorem memWrite_effect (s : State) (a v : Word) : Effect s (s.memWrite a v) := by constructor <;> simp

/-- All that an instruction without an error of its own can do: the UnwrittenRead of its handler, or an effect. -/
theorem exec_effect_of_no_error {i : Instr} {s t : State} (hd : ∀ dev ops, i ≠ .iotUnknown dev ops)
    (hn : ∀ bits, i ≠ .oprNeither bits) (h : exec i s = .next t) :
    (∃ item, t = s.fatal (.unwrittenRead s.instrAddr item)) ∨ Effect s t := by
  cases i
  case iotUnknown dev ops => exact absurd rfl (hd dev ops)
  case oprNeither bits => exact absurd rfl (hn bits)
  case and =>
    refine conclude_effect (fun u hu => ?_) h
    simp only [bind_ok, pure_ok] at hu
    obtain ⟨_, -, _, -, _, -, rfl⟩ := hu
    constructor <;> simp
  case tad =>
    refine conclude_effect (fun u hu => ?_) h
    simp only [bind_ok, pure_ok] at hu
    obtain ⟨_, -, _, -, _, -, rfl⟩ := hu
    constructor <;> simp
  case isz =>
    refine conclude_effect (fun u hu => ?_) h
    simp only [bind_ok] at hu
    obtain ⟨_, -, _, -, hu⟩ := hu
    split at hu
    · obtain ⟨_, -, rfl⟩ := skip_ok.1 hu
      constructor <;> simp
    · rw [← pure_ok.1 hu]
      exact memWrite_effect _ _ _
  case dca =>
    refine conclude_effect (fun u hu => ?_) h
    simp only [bind_ok, pure_ok] at hu
    obtain ⟨_, -, _, -, rfl⟩ := hu
    constructor <;> simp
  case jms =>
    refine conclude_effect (fun u hu => ?_) h
    simp only [bind_ok, pure_ok] at hu
    obtain ⟨_, -, _, -, rfl⟩ := hu
    constructor <;> simp
  case jmp =>
    refine conclude_effect (fun u hu => ?_) h
    simp only [bind_ok, pure_ok] at hu
    obtain ⟨_, -, rfl⟩ := hu
    constructor <;> simp
  case iotReader => cases h; exact .inr (.refl s)
  case iotPunch => exact conclude_effect (fun u hu => punch_effect hu) h
  case oprGroup1 => exact conclude_effect (fun u hu => (group1Sequence_change hu).effect) h
  case oprGroup2 => exact conclude_effect (fun u hu => group2Sequence_effect hu) h
  case nop => cases h; exact .inr (.refl s)
  case iac => exact conclude_effect (fun u hu => (microIac_change hu).effect) h
  case ral => exact conclude_effect (fun u hu => (microRal_change hu).effect) h
  case rtl => exact conclude_effect (fun u hu => (microRepeat_change microRal_change hu).effect) h
  case rar => exact conclude_effect (fun u hu => (microRar_change hu).effect) h
  case rtr => exact conclude_effect (fun u hu => (microRepeat_change microRar_change hu).effect) h
  case cml => exact conclude_effect (fun u hu => (microCml_change hu).effect) h
  case cma => exact conclude_effect (fun u hu => (microCma_change hu).effect) h
  case cll => exact conclude_effect (fun u hu => (microCll_change hu).effect) h
  case cla => exact conclude_effect (fun u hu => (microCla_change hu).effect) h
  case hlt =>
    refine conclude_effect (fun u hu => ?_) h
    obtain ⟨_, -, rfl⟩ := microHlt_ok.1 hu
    constructor <;> simp
  case skp => exact conclude_effect (fun u hu => skip_effect hu) h
  case snl => exact conclude_effect (fun u hu => skipOn_effect hu) h
  case szl => exact conclude_effect (fun u hu => skipOn_effect hu) h
  case sza => exact conclude_effect (fun u hu => skipOn_effect hu) h
  case sna => exact conclude_effect (fun u hu => skipOn_effect hu) h
  case sma => exact conclude_effect (fun u hu => skipOn_effect hu) h
  case spa => exact conclude_effect (fun u hu => skipOn_effect hu) h
  case claGroup2 => cases h; exact .inr (by constructor <;> simp [clearIf])
  case oprGroup2NoBits => cases h; exact .inr (.refl s)

/-- All that an instruction can do: one of the three errors, each with its own instructions, or an effect. -/
theorem exec_cases {i : Instr} {s t : State} (h : exec i s = .next t) :
    (∃ dev ops, i = .iotUnknown dev ops ∧ t = s.fatal (.unknownDeviceError s.instrAddr s.ir dev)) ∨
    (∃ bits, i = .oprNeither bits ∧ t = s.fatal (.decodeError s.instrAddr s.ir s.pc)) ∨
    ((∀ dev ops, i ≠ .iotUnknown dev ops) ∧ (∀ bits, i ≠ .oprNeither bits) ∧
      ((∃ item, t = s.fatal (.unwrittenRead s.instrAddr item)) ∨ Effect s t)) := by
  by_cases hd : ∃ dev ops, i = .iotUnknown dev ops
  · obtain ⟨dev, ops, rfl⟩ := hd
    cases h
    exact .inl ⟨dev, ops, rfl, rfl⟩
  by_cases hn : ∃ bits, i = .oprNeither bits
  · obtain ⟨bits, rfl⟩ := hn
    cases h
    exact .inr (.inl ⟨bits, rfl, rfl⟩)
  have hd' : ∀ dev ops, i ≠ .iotUnknown dev ops := fun dev ops k => hd ⟨dev, ops, k⟩
  have hn' : ∀ bits, i ≠ .oprNeither bits := fun bits k => hn ⟨bits, k⟩
  exact .inr (.inr ⟨hd', hn', exec_effect_of_no_error hd' hn' h⟩)

/-- The fatal stop of the state it began in, or an effect. -/
theorem exec_effect {i : Instr} {s t : State} (h : exec i s = .next t) : (∃ e, t = s.fatal e) ∨ Effect s t := by
  rcases exec_cases h with ⟨_, _, -, k⟩ | ⟨_, -, k⟩ | ⟨-, -, ⟨_, k⟩ | k⟩
  · exact .inl ⟨_, k⟩
  · exact .inl ⟨_, k⟩
  · exact .inl ⟨_, k⟩
  · exact .inr k

/-- The punch traces nothing. -/
theorem punch_trace {skip clear send : Bool} {s t : State}
    (h : (do let u ← punchSkip skip s; punchSend send (punchClear clear u)) = .ok t) : t.trace = s.trace := by
  simp only [bind_ok] at h
  obtain ⟨u, hu, h⟩ := h
  have hu' : u.trace = s.trace := by
    cases skip
    · rw [← pure_ok.1 hu]
    · simp only [punchSkip, if_true, bind_ok] at hu
      obtain ⟨ready, -, hu⟩ := hu
      cases ready
      · rw [← pure_ok.1 hu]
      · simp only [if_true, bind_ok, skip_ok, pure_ok] at hu
        obtain ⟨_, ⟨pc, -, rfl⟩, rfl⟩ := hu
        cases Config.punchSkipClearsFlag <;> rfl
  have hc : (punchClear clear u).trace = u.trace := by cases clear <;> rfl
  rw [← hu', ← hc]
  cases send
  · rw [← pure_ok.1 h]
  · simp only [punchSend, if_true, bind_ok, pure_ok] at h
    obtain ⟨v, -, rfl⟩ := h
    split <;> rfl

/-- An instruction with the HLT bit (45_operate_group2 R203). -/
def HasHlt (i : Instr) : Prop := i = .hlt ∨ ∃ g, i = .oprGroup2 g ∧ g.hlt = true

/-- The event of an instruction that completes: Halt exactly where it has the HLT bit, else a MemoryWrite or none. -/
theorem exec_trace {i : Instr} {s t : State} (h : exec i s = .next t) (hf : t.fault = none) :
    (HasHlt i ∧ ∃ pc, t.trace = s.trace ++ [.halt pc]) ∨
      (¬ HasHlt i ∧ (t.trace = s.trace ∨ ∃ a v, t.trace = s.trace ++ [.memoryWrite a v])) := by
  have ok : ∀ {r : Except Item State}, s.conclude r = .next t → r = .ok t := fun {r} k =>
    (conclude_next.1 k).elim id fun ⟨_, _, e⟩ => by rw [e] at hf; cases hf
  have quiet : ∀ {r : Except Item State}, (∀ u, r = .ok u → Group1Change s u) → s.conclude r = .next t →
      t.trace = s.trace := fun {r} c k => by rw [(c t (ok k)).same]
  have test : ∀ {r : Except Item Bool}, skipOn r s = .ok t → t.trace = s.trace := fun {r} k => by
    simp only [skipOn, bind_ok] at k
    obtain ⟨_, -, k⟩ := k
    rcases skipIf_cases k with ⟨-, rfl⟩ | ⟨-, _, -, rfl⟩ <;> rfl
  cases i
  case and =>
    have k := ok h
    simp only [bind_ok, pure_ok] at k
    obtain ⟨_, -, _, -, _, -, rfl⟩ := k
    exact .inr ⟨by simp [HasHlt], .inl rfl⟩
  case tad =>
    have k := ok h
    simp only [bind_ok, pure_ok] at k
    obtain ⟨_, -, _, -, _, -, rfl⟩ := k
    exact .inr ⟨by simp [HasHlt], .inl rfl⟩
  case isz =>
    have k := ok h
    simp only [bind_ok] at k
    obtain ⟨_, -, _, -, k⟩ := k
    split at k
    · obtain ⟨_, -, rfl⟩ := skip_ok.1 k
      exact .inr ⟨by simp [HasHlt], .inr ⟨_, _, rfl⟩⟩
    · rw [← pure_ok.1 k]
      exact .inr ⟨by simp [HasHlt], .inr ⟨_, _, rfl⟩⟩
  case dca =>
    have k := ok h
    simp only [bind_ok, pure_ok] at k
    obtain ⟨_, -, _, -, rfl⟩ := k
    exact .inr ⟨by simp [HasHlt], .inr ⟨_, _, rfl⟩⟩
  case jms =>
    have k := ok h
    simp only [bind_ok, pure_ok] at k
    obtain ⟨_, -, _, -, rfl⟩ := k
    exact .inr ⟨by simp [HasHlt], .inr ⟨_, _, rfl⟩⟩
  case jmp =>
    have k := ok h
    simp only [bind_ok, pure_ok] at k
    obtain ⟨_, -, rfl⟩ := k
    exact .inr ⟨by simp [HasHlt], .inl rfl⟩
  case iotPunch =>
    have e := punch_trace (ok h)
    exact .inr ⟨by simp [HasHlt], .inl e⟩
  case oprGroup2 g =>
    have k := ok h
    simp only [group2Sequence, bind_ok] at k
    obtain ⟨_, -, u, hu, k⟩ := k
    have e : (clearIf g.cla u).trace = s.trace := by
      rcases skipIf_cases hu with ⟨-, rfl⟩ | ⟨-, _, -, rfl⟩ <;> cases g.cla <;> rfl
    split at k
    · obtain ⟨pc, -, rfl⟩ := microHlt_ok.1 k
      exact .inl ⟨.inr ⟨g, rfl, ‹_›⟩, pc, by simp [e]⟩
    · rename_i hg
      rw [← pure_ok.1 k]
      exact .inr ⟨by simp [HasHlt, hg], .inl e⟩
  case hlt =>
    obtain ⟨pc, -, rfl⟩ := microHlt_ok.1 (ok h)
    exact .inl ⟨.inl rfl, pc, rfl⟩
  case skp =>
    obtain ⟨_, -, rfl⟩ := skip_ok.1 (ok h)
    exact .inr ⟨by simp [HasHlt], .inl rfl⟩
  case oprGroup1 => exact .inr ⟨by simp [HasHlt], .inl (quiet (fun _ => group1Sequence_change) h)⟩
  case iac => exact .inr ⟨by simp [HasHlt], .inl (quiet (fun _ => microIac_change) h)⟩
  case ral => exact .inr ⟨by simp [HasHlt], .inl (quiet (fun _ => microRal_change) h)⟩
  case rtl => exact .inr ⟨by simp [HasHlt], .inl (quiet (fun _ => microRepeat_change microRal_change) h)⟩
  case rar => exact .inr ⟨by simp [HasHlt], .inl (quiet (fun _ => microRar_change) h)⟩
  case rtr => exact .inr ⟨by simp [HasHlt], .inl (quiet (fun _ => microRepeat_change microRar_change) h)⟩
  case cml => exact .inr ⟨by simp [HasHlt], .inl (quiet (fun _ => microCml_change) h)⟩
  case cma => exact .inr ⟨by simp [HasHlt], .inl (quiet (fun _ => microCma_change) h)⟩
  case cll => exact .inr ⟨by simp [HasHlt], .inl (quiet (fun _ => microCll_change) h)⟩
  case cla => exact .inr ⟨by simp [HasHlt], .inl (quiet (fun _ => microCla_change) h)⟩
  case snl => exact .inr ⟨by simp [HasHlt], .inl (test (ok h))⟩
  case szl => exact .inr ⟨by simp [HasHlt], .inl (test (ok h))⟩
  case sza => exact .inr ⟨by simp [HasHlt], .inl (test (ok h))⟩
  case sna => exact .inr ⟨by simp [HasHlt], .inl (test (ok h))⟩
  case sma => exact .inr ⟨by simp [HasHlt], .inl (test (ok h))⟩
  case spa => exact .inr ⟨by simp [HasHlt], .inl (test (ok h))⟩
  all_goals cases h
  all_goals first
    | cases hf
    | exact .inr ⟨by simp [HasHlt], .inl rfl⟩

end Sys2Proof.Machine
end

