-- ==== Sys2Proof/Laws/PerInstr.lean ====
section
/-! SUPPORT. Facts about every instruction as a term, one lemma per constructor. -/

namespace Sys2Proof.Laws

open Sys2Proof

/-- The opcode that 30_encoding R67 gives an instruction. -/
def opcodeOf : Instr → BitVec 3
  | .and _ _ _ => 0#3
  | .tad _ _ _ => 1#3
  | .isz _ _ _ => 2#3
  | .dca _ _ _ => 3#3
  | .jms _ _ _ => 4#3
  | .jmp _ _ _ => 5#3
  | .iotReader _ => 6#3
  | .iotPunch _ _ _ => 6#3
  | .iotUnknown _ _ => 6#3
  | .oprGroup1 _ => 7#3
  | .oprGroup2 _ => 7#3
  | .oprNeither _ => 7#3
  | .nop => 7#3
  | .iac => 7#3
  | .ral => 7#3
  | .rtl => 7#3
  | .rar => 7#3
  | .rtr => 7#3
  | .cml => 7#3
  | .cma => 7#3
  | .cll => 7#3
  | .cla => 7#3
  | .hlt => 7#3
  | .skp => 7#3
  | .snl => 7#3
  | .szl => 7#3
  | .sza => 7#3
  | .sna => 7#3
  | .sma => 7#3
  | .spa => 7#3
  | .claGroup2 => 7#3
  | .oprGroup2NoBits => 7#3

/-- The top three bits of an instruction's word are its opcode (R60, R67). -/
def OpcodeBits.Statement (i : Instr) : Prop := opcodeField (encode i) = opcodeOf i

/-- The opcode field of a memory-reference word (R61). -/
theorem opcodeField_encodeMemRef (op : BitVec 3) (i z : Bool) (off : Offset) :
    opcodeField (encodeMemRef op i z off) = op := by
  ext k hk
  simp only [opcodeField, encodeMemRef, BitVec.getElem_extractLsb', BitVec.getLsbD_cast, BitVec.getLsbD_append]
  obtain rfl | rfl | rfl : k = 0 ∨ k = 1 ∨ k = 2 := by omega
  all_goals simp

/-- The opcode field of an IOT word (R62). -/
theorem opcodeField_encodeIot (dev : BitVec 6) (ops : BitVec 3) : opcodeField (encodeIot dev ops) = 0o6#3 := by
  ext k hk
  simp only [opcodeField, encodeIot, BitVec.getElem_extractLsb', BitVec.getLsbD_cast, BitVec.getLsbD_append]
  obtain rfl | rfl | rfl : k = 0 ∨ k = 1 ∨ k = 2 := by omega
  all_goals simp

theorem OpcodeBits.and (i z : Bool) (off : Offset) : OpcodeBits.Statement (.and i z off) := by
  exact opcodeField_encodeMemRef _ i z off

theorem OpcodeBits.tad (i z : Bool) (off : Offset) : OpcodeBits.Statement (.tad i z off) := by
  exact opcodeField_encodeMemRef _ i z off

theorem OpcodeBits.isz (i z : Bool) (off : Offset) : OpcodeBits.Statement (.isz i z off) := by
  exact opcodeField_encodeMemRef _ i z off

theorem OpcodeBits.dca (i z : Bool) (off : Offset) : OpcodeBits.Statement (.dca i z off) := by
  exact opcodeField_encodeMemRef _ i z off

theorem OpcodeBits.jms (i z : Bool) (off : Offset) : OpcodeBits.Statement (.jms i z off) := by
  exact opcodeField_encodeMemRef _ i z off

theorem OpcodeBits.jmp (i z : Bool) (off : Offset) : OpcodeBits.Statement (.jmp i z off) := by
  exact opcodeField_encodeMemRef _ i z off

theorem OpcodeBits.iotReader (ops : BitVec 3) : OpcodeBits.Statement (.iotReader ops) := by
  exact opcodeField_encodeIot _ _

theorem OpcodeBits.iotPunch (skip clear send : Bool) : OpcodeBits.Statement (.iotPunch skip clear send) := by
  exact opcodeField_encodeIot _ _

theorem OpcodeBits.iotUnknown (dev : BitVec 6) (ops : BitVec 3) : OpcodeBits.Statement (.iotUnknown dev ops) := by
  exact opcodeField_encodeIot _ _

theorem OpcodeBits.oprGroup1 (g : Group1) : OpcodeBits.Statement (.oprGroup1 g) := by
  rcases g with ⟨_ | _, _ | _, _ | _, _ | _, _ | _, _ | _, _ | _, _ | _⟩ <;> rfl

theorem OpcodeBits.oprGroup2 (g : Group2) : OpcodeBits.Statement (.oprGroup2 g) := by
  rcases g with ⟨_ | _, _ | _, _ | _, _ | _, _ | _, _ | _, _ | _⟩ <;> rfl

theorem OpcodeBits.oprNeither (bits : BitVec 7) : OpcodeBits.Statement (.oprNeither bits) := by
  revert bits; show ∀ bits, _ = _; decide

theorem OpcodeBits.nop : OpcodeBits.Statement .nop := rfl

theorem OpcodeBits.iac : OpcodeBits.Statement .iac := rfl

theorem OpcodeBits.ral : OpcodeBits.Statement .ral := rfl

theorem OpcodeBits.rtl : OpcodeBits.Statement .rtl := rfl

theorem OpcodeBits.rar : OpcodeBits.Statement .rar := rfl

theorem OpcodeBits.rtr : OpcodeBits.Statement .rtr := rfl

theorem OpcodeBits.cml : OpcodeBits.Statement .cml := rfl

theorem OpcodeBits.cma : OpcodeBits.Statement .cma := rfl

theorem OpcodeBits.cll : OpcodeBits.Statement .cll := rfl

theorem OpcodeBits.cla : OpcodeBits.Statement .cla := rfl

theorem OpcodeBits.hlt : OpcodeBits.Statement .hlt := rfl

theorem OpcodeBits.skp : OpcodeBits.Statement .skp := rfl

theorem OpcodeBits.snl : OpcodeBits.Statement .snl := rfl

theorem OpcodeBits.szl : OpcodeBits.Statement .szl := rfl

theorem OpcodeBits.sza : OpcodeBits.Statement .sza := rfl

theorem OpcodeBits.sna : OpcodeBits.Statement .sna := rfl

theorem OpcodeBits.sma : OpcodeBits.Statement .sma := rfl

theorem OpcodeBits.spa : OpcodeBits.Statement .spa := rfl

theorem OpcodeBits.claGroup2 : OpcodeBits.Statement .claGroup2 := rfl

theorem OpcodeBits.oprGroup2NoBits : OpcodeBits.Statement .oprGroup2NoBits := rfl

end Sys2Proof.Laws
end

