-- ==== Sys2Proof/Laws/Step.lean ====
section
/-! SUPPORT. What one step can do, said once: it fails to fetch, or it runs the decoded instruction. -/

namespace Sys2Proof.Machine

open Sys2Proof

/-- All that a step that answers a next state can do. -/
theorem step_next {s v : State} (h : step s = .next v) :
    s.fault = none ∧ s.running = true ∧
      ((∃ t, s.fetch = .error t ∧ v = t.endStepping) ∨
        ∃ a t u, s.fetch = .ok (a, t) ∧ exec (decode t.ir) t = .next u ∧ v = (u.emitExecuted a).endStepping) := by
  unfold step at h
  split at h
  · cases h
  · rename_i hf
    split at h
    · cases h
    · rename_i hr
      refine ⟨by simpa using hf, by simpa using hr, ?_⟩
      split at h
      · rename_i t ht
        cases h
        exact .inl ⟨t, ht, rfl⟩
      · rename_i a t ht
        split at h
        · rename_i u hu
          cases h
          exact .inr ⟨a, t, u, ht, hu, rfl⟩
        · cases h
        · cases h

end Sys2Proof.Machine
end

