-- ==== Sys2Proof/Tests/Slice0.lean ====
section
/-! SUPPORT. The author's own tests. Expected values are those of spec/95_test_vectors.md (the section stands at each
group) or are read off the encodings of 30_encoding. The witnesses at the end meet the hypotheses of each statement of
Certificates/Slice0/Obligations.lean. -/

namespace Sys2Proof.Tests

open Sys2Proof Sys2Proof.Machine

/-! ### Well-formed terms (30_encoding R68, R70, R71) -/

theorem test_wf_accepts :
    (Instr.iotUnknown 0o77#6 7#3).wf = true ∧ (Instr.oprGroup1 { cla := true, cll := true }).wf = true ∧
      (Instr.oprGroup2 { zero := true, hlt := true }).wf = true ∧ (Instr.jmp true true 0o177#7).wf = true := by decide

theorem test_wf_refuses_a_known_device_as_unknown :
    (Instr.iotUnknown 0o03#6 0#3).wf = false ∧ (Instr.iotUnknown 0o04#6 1#3).wf = false := by decide

theorem test_wf_refuses_a_named_group1_word_in_generic_form :
    (Instr.oprGroup1 {}).wf = false ∧ (Instr.oprGroup1 { ral := true, two := true }).wf = false := by decide

theorem test_wf_refuses_a_named_group2_word_in_generic_form :
    (Instr.oprGroup2 { cla := true }).wf = false ∧ (Instr.oprGroup2 {}).wf = false := by decide

/-! ### Decoding, one word for every constructor -/

/-- Opcode, I, Z, offset (R61): 000 0 1 0101000, 001 1 0 0000001, 010 0 0 1111111, and so on. -/
theorem test_decode_memory_reference :
    decode 0b000010101000#12 = .and false true 0b0101000#7 ∧ decode 0b001100000001#12 = .tad true false 1#7 ∧
    decode 0b010001111111#12 = .isz false false 0b1111111#7 ∧ decode 0b011110000010#12 = .dca true true 2#7 ∧
    decode 0b100000101000#12 = .jms false false 0b0101000#7 ∧ decode 0b101110000011#12 = .jmp true true 3#7 := by decide

/-- 110, the device code, the operation bits (R62): device 000011, 000100, 000101. -/
theorem test_decode_iot :
    decode 0b110000011101#12 = .iotReader 0b101#3 ∧ decode 0b110000100001#12 = .iotPunch true false false ∧
    decode 0b110000100010#12 = .iotPunch false true false ∧ decode 0b110000100100#12 = .iotPunch false false true ∧
    decode 0b110000101110#12 = .iotUnknown 0b000101#6 0b110#3 := by decide

/-- 111 0, then CLA CLL CMA CML RAR RAL two IAC (R64). -/
theorem test_decode_group1 :
    decode 0b111000000000#12 = .nop ∧ decode 0b111000000001#12 = .iac ∧ decode 0b111000000100#12 = .ral ∧
    decode 0b111000000110#12 = .rtl ∧ decode 0b111000001000#12 = .rar ∧ decode 0b111000001010#12 = .rtr ∧
    decode 0b111000010000#12 = .cml ∧ decode 0b111000100000#12 = .cma ∧ decode 0b111001000000#12 = .cll ∧
    decode 0b111010000000#12 = .cla ∧ decode 0b111011000001#12 = .oprGroup1 { cla := true, cll := true, iac := true } ∧
    decode 0b111000000010#12 = .oprGroup1 { two := true } := by decide

/-- 111 1, then CLA, sign, zero, link, family, unassigned, HLT, 0 (R65). -/
theorem test_decode_group2 :
    decode 0b111100000010#12 = .hlt ∧ decode 0b111100001000#12 = .skp ∧ decode 0b111100010000#12 = .snl ∧
    decode 0b111100011000#12 = .szl ∧ decode 0b111100100000#12 = .sza ∧ decode 0b111100101000#12 = .sna ∧
    decode 0b111101000000#12 = .sma ∧ decode 0b111101001000#12 = .spa ∧ decode 0b111110000000#12 = .claGroup2 ∧
    decode 0b111100000000#12 = .oprGroup2NoBits ∧
    decode 0b111101101000#12 = .oprGroup2 { sign := true, zero := true, andFamily := true } ∧
    decode 0b111100000100#12 = .oprGroup2 { unused := true } := by decide

/-- 111 1, seven bits, 1 (R63, R69). -/
theorem test_decode_neither : decode 0b111111001101#12 = .oprNeither 0b1100110#7 := by decide

theorem test_decode_table_word :
    decodeTableWord 12 0o7402 = some .hlt ∧ decodeTableWord 16 0o10000 = none := by decide

/-! ### One step on a small machine -/

/-- A running machine with the word `w` at `a`, PC = `a`, PF = 1, and the given AC, L and cells. -/
def machine (a w ac : Word) (l : Bool) (cells : List (Word × Word)) : State :=
  { State.reset with
    running := true
    pc := some a
    ac := some ac
    link := some l
    pf := some true
    mem := (cells.foldl (fun (m : Memory) c => m.write c.1 c.2) ([] : Memory)).write a w }

/-- The state after one step, where there is one. -/
def after (s : State) : Option State :=
  match step s with
  | .next t => some t
  | .fault _ => none
  | .refused _ => none

/-- AC, L and PC after one step. -/
def acLinkPc (s : State) : Option (Option Word × Option Bool × Option Word) :=
  (after s).map fun t => (t.ac, t.link, t.pc)

/-! 95_test_vectors L2.1 and L1.2. -/

theorem test_and_indirect_current_page :
    acLinkPc (machine 0o0200#12 0o0450#12 0o7777#12 false [(0o0250#12, 0o3000#12), (0o3000#12, 0o0456#12)]) =
      some (some 0o0456#12, some false, some 0o0201#12) := by decide

theorem test_and_indirect_page_zero :
    acLinkPc (machine 0o4000#12 0o0620#12 0o7770#12 false [(0o0020#12, 0o1234#12), (0o1234#12, 0o0707#12)]) =
      some (some 0o0700#12, some false, some 0o4001#12) := by decide

theorem test_tad_carry_out :
    acLinkPc (machine 0o0200#12 0o1050#12 0o7777#12 false [(0o0250#12, 0o7777#12)]) =
      some (some 0o7776#12, some true, some 0o0201#12) := by decide

theorem test_tad_page_of_the_last_word_and_old_link_lost :
    acLinkPc (machine 0o0377#12 0o1005#12 0#12 true [(0o0205#12, 0o0011#12), (0o0405#12, 0o0022#12)]) =
      some (some 0o0011#12, some false, some 0o0400#12) := by decide

theorem test_isz_skip_wraps :
    (after (machine 0o7776#12 0o2050#12 0#12 false [(0o7650#12, 0o7777#12)])).map
      (fun t => (t.pc, t.mem.read 0o7650#12)) = some (some 0#12, some 0#12) := by decide

theorem test_isz_of_its_own_word :
    (after (machine 0o7777#12 0o2600#12 0#12 false [(0#12, 0o7777#12)])).map
      (fun t => (t.pc, t.mem.read 0o7777#12)) = some (some 0#12, some 0o2601#12) := by decide

theorem test_dca :
    (after (machine 0o0200#12 0o3050#12 0o1234#12 true [])).map
      (fun t => (t.ac, t.link, t.mem.read 0o0250#12, t.trace)) =
      some (some 0#12, some true, some 0o1234#12,
        [.memoryWrite 0o0250#12 0o1234#12,
          .instructionExecuted 0o0200#12 0o3050#12 (some 0#12) (some true) (some 0o0201#12)]) := by decide

theorem test_jms_to_the_top :
    (after (machine 0o7600#12 0o4177#12 0#12 false [])).map (fun t => (t.pc, t.mem.read 0o7777#12)) =
      some (some 0#12, some 0o7601#12) := by decide

theorem test_jms_from_the_top :
    (after (machine 0o7777#12 0o4650#12 0#12 false [(0o0050#12, 0o0100#12)])).map
      (fun t => (t.pc, t.mem.read 0o0100#12)) = some (some 0o0101#12, some 0#12) := by decide

theorem test_jmp_at_the_top_page :
    (after (machine 0o7777#12 0o5002#12 0#12 false [])).map State.pc = some (some 0o7602#12) := by decide

theorem test_jmp_indirect :
    (after (machine 0o0200#12 0o5410#12 0#12 false [(0o0210#12, 0o3456#12)])).map State.pc =
      some (some 0o3456#12) := by decide

/-! 95_test_vectors L2.4 and L2.5. -/

theorem test_reader :
    (after (machine 0o0200#12 0o6036#12 0o0101#12 true [])).map (fun t => (t.ac, t.pf, t.pc, t.out)) =
      some (some 0o0101#12, some true, some 0o0201#12, []) := by decide

theorem test_punch_clears_and_sends :
    (after (machine 0o0200#12 0o6046#12 0o0101#12 false [])).map (fun t => (t.pf, t.out)) =
      some (some true, [0o0101#12]) := by decide

theorem test_punch_sends_no_zero :
    (after (machine 0o0200#12 0o6044#12 0#12 false [])).map (fun t => (t.pf, t.out)) =
      some (some true, []) := by decide

theorem test_unknown_device :
    (after (machine 0o0200#12 0o6777#12 0o0123#12 true [])).map (fun t => (t.fault, t.running, t.pc, t.trace)) =
      some (some (.unknownDeviceError (some 0o0200#12) 0o6777#12 0o77#6), false, some 0o0201#12, []) := by decide

theorem test_neither_group :
    (after (machine 0o0200#12 0o7777#12 0o0123#12 true [])).map (fun t => (t.fault, t.running, t.ac, t.trace)) =
      some (some (.decodeError (some 0o0200#12) 0o7777#12 (some 0o0201#12)), false, some 0o0123#12, []) := by decide

theorem test_unwritten_ac_undoes_dca :
    (after { machine 0o0200#12 0o3050#12 0#12 true [] with ac := none }).map
      (fun t => (t.fault, t.pc, t.mem.read 0o0250#12, t.trace)) =
      some (some (.unwrittenRead (some 0o0200#12) .ac), some 0o0201#12, none, []) := by decide

/-! 95_test_vectors L2.2. -/

theorem test_nop :
    acLinkPc (machine 0o0200#12 0o7000#12 0o1234#12 true []) =
      some (some 0o1234#12, some true, some 0o0201#12) := by decide

theorem test_cla :
    acLinkPc (machine 0o0200#12 0o7200#12 0o1234#12 true []) = some (some 0#12, some true, some 0o0201#12) := by decide

theorem test_cll :
    acLinkPc (machine 0o0200#12 0o7100#12 0o1234#12 true []) =
      some (some 0o1234#12, some false, some 0o0201#12) := by decide

theorem test_cma :
    acLinkPc (machine 0o0200#12 0o7040#12 0o1234#12 false []) =
      some (some 0o6543#12, some false, some 0o0201#12) := by decide

theorem test_cml :
    acLinkPc (machine 0o0200#12 0o7020#12 0o1234#12 true []) =
      some (some 0o1234#12, some false, some 0o0201#12) := by decide

theorem test_iac_carry :
    acLinkPc (machine 0o0200#12 0o7001#12 0o7777#12 false []) = some (some 0#12, some true, some 0o0201#12) := by decide

theorem test_iac_clears_link :
    acLinkPc (machine 0o0200#12 0o7001#12 0o0005#12 true []) =
      some (some 0o0006#12, some false, some 0o0201#12) := by decide

theorem test_rar :
    acLinkPc (machine 0o0200#12 0o7010#12 0o4000#12 true []) =
      some (some 0o6000#12, some false, some 0o0201#12) := by decide

theorem test_ral :
    acLinkPc (machine 0o0200#12 0o7004#12 0o0001#12 true []) =
      some (some 0o0003#12, some false, some 0o0201#12) := by decide

theorem test_rtr :
    acLinkPc (machine 0o0200#12 0o7012#12 0o0003#12 false []) =
      some (some 0o4000#12, some true, some 0o0201#12) := by decide

theorem test_rtl :
    acLinkPc (machine 0o0200#12 0o7006#12 0o6000#12 false []) =
      some (some 0o0001#12, some true, some 0o0201#12) := by decide

theorem test_group1_cma_rtl :
    acLinkPc (machine 0o0200#12 0o7046#12 0#12 false []) = some (some 0o7775#12, some true, some 0o0201#12) := by decide

theorem test_group1_cml_then_iac_overwrites_link :
    acLinkPc (machine 0o0200#12 0o7021#12 0o0005#12 false []) =
      some (some 0o0006#12, some false, some 0o0201#12) := by decide

/-! 95_test_vectors L2.3. -/

theorem test_no_group2_bits :
    acLinkPc (machine 0o0200#12 0o7400#12 0#12 true []) = some (some 0#12, some true, some 0o0201#12) := by decide

theorem test_sma :
    acLinkPc (machine 0o0200#12 0o7500#12 0o4000#12 false []) =
      some (some 0o4000#12, some false, some 0o0202#12) := by decide

theorem test_sza :
    acLinkPc (machine 0o0200#12 0o7440#12 0o0001#12 false []) =
      some (some 0o0001#12, some false, some 0o0201#12) := by decide

theorem test_snl :
    acLinkPc (machine 0o0200#12 0o7420#12 0o0005#12 true []) =
      some (some 0o0005#12, some true, some 0o0202#12) := by decide

theorem test_spa_zero_is_positive :
    acLinkPc (machine 0o0200#12 0o7510#12 0#12 false []) = some (some 0#12, some false, some 0o0202#12) := by decide

theorem test_sna :
    acLinkPc (machine 0o0200#12 0o7450#12 0o0007#12 false []) =
      some (some 0o0007#12, some false, some 0o0202#12) := by decide

theorem test_szl :
    acLinkPc (machine 0o0200#12 0o7430#12 0o0005#12 true []) =
      some (some 0o0005#12, some true, some 0o0201#12) := by decide

theorem test_skp :
    acLinkPc (machine 0o0200#12 0o7410#12 0o1234#12 true []) =
      some (some 0o1234#12, some true, some 0o0202#12) := by decide

theorem test_group2_or_family :
    acLinkPc (machine 0o0200#12 0o7540#12 0#12 false []) = some (some 0#12, some false, some 0o0202#12) := by decide

theorem test_group2_and_family :
    acLinkPc (machine 0o0200#12 0o7550#12 0#12 false []) = some (some 0#12, some false, some 0o0201#12) := by decide

theorem test_cla_group2 :
    acLinkPc (machine 0o0200#12 0o7600#12 0o1234#12 true []) = some (some 0#12, some true, some 0o0201#12) := by decide

theorem test_hlt :
    (after (machine 0o0200#12 0o7402#12 0o1234#12 false [])).map (fun t => (t.running, t.runEnd, t.trace)) =
      some (false, some .halted,
        [.halt 0o0201#12,
          .instructionExecuted 0o0200#12 0o7402#12 (some 0o1234#12) (some false) (some 0o0201#12)]) := by decide

/-! 95_test_vectors L2.6: a stepped run, and the two machines that have no step. -/

theorem test_stepped_run_ends :
    (after { machine 0o0200#12 0o7001#12 0o0005#12 false [] with stepping := true }).map
      (fun t => (t.ac, t.running, t.runEnd)) = some (some 0o0006#12, false, some .stepped) := by decide

theorem test_reset_has_no_step : after State.reset = none := by decide

theorem test_fetch_word_runs_after_reset :
    acLinkPc (State.reset.withFetchWord 12 0o7001) = some (some 0o0001#12, some false, some 0o0001#12) := by decide

/-! ### The assembler (95_test_vectors L2.7, L1.7, L1.8) -/

/-- The word at `addr` of the image of a source, or none where the assembly failed. -/
def assembledWord (source : List String) (addr : Word) : Option Word :=
  match assemble (source.map String.toList) with
  | .ok (img, _) => some (img.word addr)
  | .error _ => none

/-- The error of a source, if it has one. -/
def assemblyError (source : List String) : Option AsmError :=
  match assemble (source.map String.toList) with
  | .ok _ => none
  | .error e => some e

theorem test_asm_automatic_page_zero : assembledWord ["*200", "TAD 5"] 0o0200#12 = some 0o1205#12 := by decide

theorem test_asm_own_page : assembledWord ["*200", "TAD 377"] 0o0200#12 = some 0o1177#12 := by decide

theorem test_asm_explicit_z : assembledWord ["*200", "TAD I Z 5"] 0o0200#12 = some 0o1605#12 := by decide

theorem test_asm_here_minus_one : assembledWord ["*200", "JMP . - 1"] 0o0200#12 = some 0o5377#12 := by decide

theorem test_asm_forward_reference :
    assembledWord ["*200", "JMP L", "L, HLT / stop"] 0o0200#12 = some 0o5001#12 := by decide

theorem test_asm_operate_order : assembledWord ["CMA CLA RAL IAC"] 0#12 = some 0o7245#12 := by decide

theorem test_asm_group2_operate : assembledWord ["SZA CLA"] 0#12 = some 0o7640#12 := by decide

theorem test_asm_counter_wraps : assembledWord ["*7777", "CLA", "CLA"] 0#12 = some 0o7200#12 := by decide

theorem test_asm_page_fault :
    assemblyError ["*200", "TAD 400"] = some (.pageFaultError "TAD 400".toList) := by decide

theorem test_asm_flags_out_of_order :
    assemblyError ["TAD Z I 5"] = some (.syntaxError "TAD Z I 5".toList) := by decide

theorem test_asm_not_octal : assemblyError ["TAD 18"] = some (.syntaxError "TAD 18".toList) := by decide

theorem test_asm_reserved_label : assemblyError ["TAD, CLA"] = some (.syntaxError "TAD, CLA".toList) := by decide

theorem test_asm_undefined_symbol :
    assemblyError ["TAD FOO"] = some (.undefinedSymbolError "FOO".toList "TAD FOO".toList) := by decide

/-! ### Witnesses: for every statement with hypotheses, a state and operands that meet all of them together, for each
clause -/

/-- A state in which a handler begins: after the fetch of `w` at 0o0200, so PC is 0o0201. -/
def handling (w ac : Word) (l : Bool) (cells : List (Word × Word)) : State :=
  { machine 0o0200#12 w ac l cells with ir := w, pc := some 0o0201#12 }

/-- A pointer and operands on the current page and on page zero. -/
def full : State :=
  handling 0o1050#12 0o1234#12 true [(0o0250#12, 0o0007#12), (0o0050#12, 0o7777#12), (0o0007#12, 0o0001#12)]

/-- `full` with PC = 0, for an instruction at 0o7777. -/
def fullAtTop : State :=
  { full with pc := some 0#12, mem := full.mem.write 0o7650#12 0o0007#12 }

theorem witness_DecodeEncodeRoundTrip :
    (Instr.iotUnknown 0o77#6 7#3).wf = true ∧ (Instr.oprGroup2 { unused := true }).wf = true := by decide

theorem witness_EffectiveAddressOfTheFourModes :
    (full.pc = some (0o0200#12 + 1#12) ∧
      full.mem.read ((0o0200#12 &&& 0o7600#12) ||| (0o50#7).setWidth 12) = some 0o0007#12 ∧
      full.mem.read ((0o50#7 : Offset).setWidth 12) = some 0o7777#12) ∧
    (fullAtTop.pc = some (0o7777#12 + 1#12) ∧
      fullAtTop.mem.read ((0o7777#12 &&& 0o7600#12) ||| (0o50#7).setWidth 12) = some 0o0007#12) ∧
    (full.mem.read ((0o0200#12 &&& 0o7600#12) ||| (0o51#7).setWidth 12) = none ∧
      full.mem.read ((0o51#7 : Offset).setWidth 12) = none ∧ { full with pc := none }.pc = none) := by decide

theorem witness_opcodes :
    (0o0050#12).extractLsb' 9 3 = 0#3 ∧ (0o1777#12).extractLsb' 9 3 = 1#3 ∧ (0o2600#12).extractLsb' 9 3 = 2#3 ∧
    (0o3000#12).extractLsb' 9 3 = 3#3 ∧ (0o4400#12).extractLsb' 9 3 = 4#3 ∧ (0o5777#12).extractLsb' 9 3 = 5#3 ∧
    (0o6037#12).extractLsb' 3 9 = 0o603#9 ∧ (0o6040#12).extractLsb' 3 9 = 0o604#9 := by decide

/-- AndResult and TadResult; the indirect form resolves to 0o0007. -/
theorem witness_AndResult_TadResult :
    full.resolve false false 0o50#7 = .ok 0o0250#12 ∧ full.resolve true false 0o50#7 = .ok 0o0007#12 ∧
    full.ac = some 0o1234#12 ∧ full.mem.read 0o0250#12 = some 0o0007#12 ∧
    full.mem.read 0o0007#12 = some 0o0001#12 := ⟨rfl, rfl, rfl, by decide, by decide⟩

/-- Both cases of ISZ: the word at 0o0050 becomes zero, the one at 0o0250 does not. -/
theorem witness_IszResult :
    full.resolve false true 0o50#7 = .ok 0o0050#12 ∧ full.mem.read 0o0050#12 = some 0o7777#12 ∧
    full.resolve false false 0o50#7 = .ok 0o0250#12 ∧ full.mem.read 0o0250#12 = some 0o0007#12 ∧
    full.pc = some 0o0201#12 := ⟨rfl, by decide, rfl, by decide, rfl⟩

/-- DcaResult, JmsResult and JmpResult; an instruction at 0o7777 stores the return address 0. -/
theorem witness_DcaResult_JmsResult_JmpResult :
    full.resolve false false 0o50#7 = .ok 0o0250#12 ∧ full.ac = some 0o1234#12 ∧
    full.pc = some (0o0200#12 + 1#12) ∧
    fullAtTop.resolve true false 0o50#7 = .ok 0o0007#12 ∧ fullAtTop.pc = some (0o7777#12 + 1#12) :=
  ⟨rfl, rfl, rfl, rfl, rfl⟩

/-- Clause 1 with a pointer and with a PC that has no value, clause 2, clause 3 with an AC, clause 4 without one. -/
theorem witness_MemoryReferenceUnwrittenReads :
    full.resolve true false 0o51#7 = .error (.mem 0o0251#12) ∧
    { full with pc := none }.resolve false false 0o50#7 = .error .pc ∧
    Instr.jms true false 0o51#7 ∈ Sys2Proof.Rules.memRefs true false 0o51#7 ∧
    ({ full with ac := none }.resolve false false 0o50#7 = .ok 0o0250#12 ∧ { full with ac := none }.ac = none) ∧
    (full.resolve false false 0o51#7 = .ok 0o0251#12 ∧ full.ac = some 0o1234#12 ∧
      full.mem.read 0o0251#12 = none) ∧
    ({ full with ac := none }.resolve false false 0o51#7 = .ok 0o0251#12 ∧
      { full with ac := none }.mem.read 0o0251#12 = none) :=
  ⟨rfl, rfl, by decide, ⟨rfl, rfl⟩, ⟨rfl, rfl, by decide⟩, rfl, by decide⟩

theorem witness_LoadAndJumpFrame :
    (Instr.jmp false false 0o50#7 ∈ [Instr.and false false 0o50#7, .tad false false 0o50#7, .jmp false false 0o50#7] ∧
      exec (.jmp false false 0o50#7) full = .next (full.setPc 0o0250#12)) ∧
    exec (.and false false 0o50#7) full = .next (full.setAc 0o0004#12) ∧
    exec (.tad false false 0o50#7) full = .next ((full.setAc 0o1243#12).setLink false) := ⟨⟨by decide, rfl⟩, rfl, rfl⟩

/-- With an effective address, and with a pointer that has no value. -/
theorem witness_StoreFrame :
    (Instr.dca false false 0o50#7 ∈ [Instr.isz false false 0o50#7, .dca false false 0o50#7, .jms false false 0o50#7] ∧
      exec (.dca false false 0o50#7) full = .next ((full.memWrite 0o0250#12 0o1234#12).setAc 0#12) ∧
      full.resolve false false 0o50#7 = .ok 0o0250#12 ∧ 0o0251#12 ≠ 0o0250#12) ∧
    exec (.dca true false 0o51#7) full =
      .next (full.fatal (.unwrittenRead (some 0o0200#12) (.mem 0o0251#12))) ∧
    full.resolve true false 0o51#7 = .error (.mem 0o0251#12) :=
  ⟨⟨by decide, rfl, rfl, by decide⟩, rfl, rfl⟩

theorem witness_PunchResult : full.ac = some 0o1234#12 ∧ full.pf = some true ∧ full.pc = some 0o0201#12 := by decide

theorem witness_PunchReadsOnlyWhatItsBitsUse :
    ({ full with pf := none }.pf = none ∧ { full with pf := none }.ac = some 0o1234#12) ∧
    ({ full with ac := none }.ac = none ∧ { full with ac := none }.pf = some true ∧
      { full with ac := none }.pc = some 0o0201#12) := by decide

/-- Devices 0o02 and 0o05, on both sides of the two that exist. -/
theorem witness_UnknownDeviceStops :
    ∀ w ∈ [0o6027#12, 0o6050#12],
      (machine 0o7777#12 w 0#12 false []).running = true ∧ (machine 0o7777#12 w 0#12 false []).fault = none ∧
      (machine 0o7777#12 w 0#12 false []).pc = some 0o7777#12 ∧
      (machine 0o7777#12 w 0#12 false []).mem.read 0o7777#12 = some w ∧ w.extractLsb' 9 3 = 0o6#3 ∧
      w.extractLsb' 3 6 ≠ 0o03#6 ∧ w.extractLsb' 3 6 ≠ 0o04#6 := by decide

theorem witness_IotFrame :
    (Instr.iotPunch false false true ∈
        [Instr.iotReader 0#3, .iotPunch false false true, .iotUnknown 0#6 0#3] ∧
      exec (.iotPunch false false true) full = .next ((full.punch 0o1234#12).setPf true)) ∧
    exec (.iotReader 0#3) full = .next full ∧
    exec (.iotUnknown 0#6 0#3) full =
      .next (full.fatal (.unknownDeviceError (some 0o0200#12) 0o1050#12 0#6)) := ⟨⟨by decide, rfl⟩, rfl, rfl⟩

/-- ClearsAndComplements, IacResult, RotateResults, Group1SequencerResult, RotateLaw and RotatesTurnTheExtendedRegister:
AC and L have a value. -/
theorem witness_group1_results : full.ac = some 0o1234#12 ∧ full.link = some true := by decide

/-- Group1SequencerResult: bits with one rotate, and the ends of the range of Group-1 words. -/
theorem witness_Group1SequencerResult :
    (({ rar := true } : Group1).rar && ({ rar := true } : Group1).ral) = false ∧
    (0o7000#12).extractLsb' 8 4 = 0b1110#4 ∧ (0o7377#12).extractLsb' 8 4 = 0b1110#4 := by decide

theorem witness_UndefinedRotateIsADraw :
    full.ac = some 0o1234#12 ∧ full.link = some true ∧ ({ rar := true, ral := true } : Group1).rar = true ∧
    ({ rar := true, ral := true } : Group1).ral = true := by decide

theorem witness_RotatesTurnTheExtendedRegister :
    (Instr.rtl, 0, 2) ∈ [(Instr.rar, 1, 0), (.rtr, 2, 0), (.ral, 0, 1), (.rtl, 0, 2)] := by decide

theorem witness_UnassignedBitsDoNothing :
    ({ cma := true } : Group1).rar = false ∧ ({ cma := true } : Group1).ral = false := by decide

/-- A machine without AC and one without L, and a word for each clause: CLA CLL IAC needs nothing, CMA needs AC, CML RAR
after CLA needs L, RAR needs both. -/
theorem witness_Group1ReadsOnlyWhatItUses :
    (({ cla := true, cll := true, iac := true } : Group1).cla = true ∧
      ({ cla := true, cll := true, iac := true } : Group1).cll = true ∧
      Sys2Proof.Rules.needsAc { cla := true, cll := true, iac := true } = false ∧
      Sys2Proof.Rules.needsLink { cla := true, cll := true, iac := true } = false) ∧
    ({ full with ac := none }.ac = none ∧ { full with ac := none }.link = some true ∧
      Sys2Proof.Rules.needsAc { cma := true } = true ∧ Sys2Proof.Rules.needsLink { cma := true } = false ∧
      Sys2Proof.Rules.needsAc { rar := true } = true ∧ Sys2Proof.Rules.needsLink { rar := true } = true) ∧
    ({ full with link := none }.link = none ∧ { full with link := none }.ac = some 0o1234#12 ∧
      Sys2Proof.Rules.needsLink { cla := true, cml := true, rar := true } = true ∧
      Sys2Proof.Rules.needsAc { cla := true, cml := true, rar := true } = false) := by decide

theorem witness_ClaCmaIacRalExample :
    ({ full with link := some false } : State).ac = some 0o1234#12 ∧ { full with link := some false }.link = some false ∧
    [0o7004#12, 0o7001#12, 0o7040#12, 0o7200#12].Perm [0o7200#12, 0o7040#12, 0o7001#12, 0o7004#12] := by decide

/-- A generic word that acts on AC alone, and a named one. -/
theorem witness_Group1Frame :
    (Instr.oprGroup1 { cla := true, cma := true } ∈ Sys2Proof.Rules.group1Instrs { cla := true, cma := true } ∧
      exec (.oprGroup1 { cla := true, cma := true }) full = .next (full.setAc 0o7777#12)) ∧
    (Instr.cml ∈ Sys2Proof.Rules.group1Instrs {} ∧ exec .cml full = .next (full.setLink false)) :=
  ⟨⟨by decide, rfl⟩, by decide, rfl⟩

/-- Group2SequencerResult and SkipTestResults, with the conditions on either side. -/
theorem witness_group2_results :
    full.ac = some 0o1234#12 ∧ full.link = some true ∧ full.pc = some 0o0201#12 ∧
    Sys2Proof.Rules.skips { sign := true } 0o4000#12 true = true ∧
    Sys2Proof.Rules.skips { sign := true } 0o3777#12 true = false ∧
    Sys2Proof.Rules.skips { sign := true, andFamily := true } 0o3777#12 true = true ∧
    Sys2Proof.Rules.skips { sign := true, andFamily := true } 0o4000#12 true = false := by decide

theorem witness_HltResult :
    full.pc = some 0o0201#12 ∧ (machine 0o7777#12 0o7402#12 0#12 false []).running = true ∧
    (machine 0o7777#12 0o7402#12 0#12 false []).fault = none ∧
    (machine 0o7777#12 0o7402#12 0#12 false []).pc = some 0o7777#12 ∧
    (machine 0o7777#12 0o7402#12 0#12 false []).mem.read 0o7777#12 = some 0o7402#12 := by decide

/-- The words 0o7442, 0o7602 and 0o7620, and a machine without AC and one without L. -/
theorem witness_Group2ReadsOnlyWhatItUses :
    ({ zero := true, hlt := true } : Group2).link = false ∧
    (({ cla := true, hlt := true } : Group2).sign = false ∧ ({ cla := true, hlt := true } : Group2).zero = false ∧
      { full with ac := none }.pc = some 0o0201#12) ∧
    (({ cla := true, link := true } : Group2).link = true ∧ ({ cla := true, link := true } : Group2).sign = false ∧
      ({ cla := true, link := true } : Group2).zero = false ∧ { full with ac := none }.link = some true) ∧
    ({ full with ac := none }.ac = none ∧ { full with link := none }.link = none ∧
      { full with link := none }.ac = some 0o1234#12) := by decide

/-- Group2SequencerResult: the ends of the range of Group-2 words. -/
theorem witness_Group2SequencerResult :
    ((0o7400#12).extractLsb' 8 4 = 0b1111#4 ∧ (0o7400#12).getLsbD 0 = false) ∧
    ((0o7776#12).extractLsb' 8 4 = 0b1111#4 ∧ (0o7776#12).getLsbD 0 = false) := by decide

theorem witness_NeitherGroupStops :
    (machine 0o7777#12 0o7401#12 0#12 false []).running = true ∧
    (machine 0o7777#12 0o7401#12 0#12 false []).fault = none ∧
    (machine 0o7777#12 0o7401#12 0#12 false []).pc = some 0o7777#12 ∧
    (machine 0o7777#12 0o7401#12 0#12 false []).mem.read 0o7777#12 = some 0o7401#12 ∧
    (0o7401#12).extractLsb' 8 4 = 0b1111#4 ∧ (0o7401#12).getLsbD 0 = true := by decide

theorem witness_Group2Frame :
    (Instr.skp ∈ Sys2Proof.Rules.group2Instrs {} ∧ exec .skp full = .next (full.setPc 0o0202#12)) ∧
    (Instr.oprGroup2 { cla := true, unused := true } ∈ Sys2Proof.Rules.group2Instrs { cla := true, unused := true } ∧
      exec (.oprGroup2 { cla := true, unused := true }) full = .next (full.setAc 0#12)) ∧
    exec .claGroup2 full = .next (full.setAc 0#12) := ⟨⟨by decide, rfl⟩, ⟨by decide, rfl⟩, rfl⟩

/-- StepRunsTheDecodedInstruction and StepsExactlyWhenRunning. -/
theorem witness_StepRunsTheDecodedInstruction :
    (machine 0o7777#12 0o7001#12 0#12 false []).running = true ∧
    (machine 0o7777#12 0o7001#12 0#12 false []).fault = none ∧
    (machine 0o7777#12 0o7001#12 0#12 false []).pc = some 0o7777#12 ∧
    (machine 0o7777#12 0o7001#12 0#12 false []).mem.read 0o7777#12 = some 0o7001#12 ∧
    decode 0o7001#12 = .iac := by decide

theorem witness_FetchWithoutAValueStops :
    ({ full with pc := none }.running = true ∧ { full with pc := none }.fault = none ∧
      { full with pc := none }.pc = none) ∧
    (full.running = true ∧ full.fault = none ∧ full.pc = some 0o0201#12 ∧ full.mem.read 0o0201#12 = none) := by decide

/-- FatalErrorUndoesTheHandler and ErrorsHaveTheirOwnInstructions: an instruction that raises an error, from a state with
none. -/
theorem witness_FatalErrorUndoesTheHandler :
    full.fault = none ∧
    exec (.oprNeither 0#7) full =
      .next (full.fatal (.decodeError (some 0o0200#12) 0o1050#12 (some 0o0201#12))) ∧
    (full.fatal (.decodeError (some 0o0200#12) 0o1050#12 (some 0o0201#12))).fault ≠ none := ⟨rfl, rfl, by decide⟩

/-- A machine that takes a step without an error: CompletedStepsAreTraced, StreamsAreAppendOnly, ValuesAreNeverLost,
SteppedRunEndsAfterOneStep with `stepping` false, StepKeepsTheInvariant. -/
theorem witness_StepKeepsTheInvariant :
    (machine 0o0200#12 0o7000#12 0#12 false []).Inv ∧
    step (machine 0o0200#12 0o7000#12 0#12 false []) =
      .next { handling 0o7000#12 0#12 false [] with
        trace := [.instructionExecuted 0o0200#12 0o7000#12 (some 0#12) (some false) (some 0o0201#12)] } :=
  ⟨by decide, rfl⟩

/-- A step that raises an error: the other clause of CompletedStepsAreTraced. -/
theorem witness_CompletedStepsAreTraced :
    step (machine 0o0200#12 0o6000#12 0#12 false []) =
      .next ((handling 0o6000#12 0#12 false []).fatal
        (.unknownDeviceError (some 0o0200#12) 0o6000#12 0#6)) := rfl

/-- The clauses of SteppedRunEndsAfterOneStep: a stepped run, and an unstepped one that halts. -/
theorem witness_SteppedRunEndsAfterOneStep :
    (after { machine 0o0200#12 0o7000#12 0#12 false [] with stepping := true }).isSome = true ∧
    (after (machine 0o0200#12 0o7402#12 0#12 false [])).map (fun t => (t.stepping, t.running)) =
      some (false, false) := by decide

theorem witness_TraceIsPassive :
    full.untraced = (full.emit (.halt 0#12)).untraced ∧ full ≠ full.emit (.halt 0#12) := by decide

/-- Values above the width, a value and none for each item, a listed and an unlisted cell. -/
theorem witness_NewMachineIsAsLaunched :
    ∃ init other : InitialState,
      init.ac = some 0o17777 ∧ init.pc = some 4096 ∧ init.link = some 3 ∧ init.pf = some 2 ∧
      (init.mem.map Prod.fst).Nodup ∧ ((0o7777#12, 0o12345) ∈ init.mem) ∧ 0#12 ∉ init.mem.map Prod.fst ∧
      other.ac = none ∧ other.pc = none ∧ other.link = none ∧ other.pf = none :=
  ⟨{ ac := some 0o17777, pc := some 4096, link := some 3, pf := some 2, mem := [(0o7777#12, 0o12345)] }, {},
    by decide⟩

/-- The last address of memory and the first beyond it. -/
theorem witness_HostStoreThenLoad : 4095 < 4096 ∧ 4096 ≤ 4096 ∧ (0#12).toNat ≠ 4095 := by decide

/-- A faulted machine, and one without an error with the last start address and the first beyond it. -/
theorem witness_RunCommand :
    (full.fatal (.unwrittenRead none .pc)).fault ≠ none ∧ full.fault = none ∧ 4095 < 4096 ∧ 4096 ≤ 4096 := by decide

/-- A halted run, a stepped run of HLT (halted too) and a stepped run of NOP (95_test_vectors L2.6). -/
theorem witness_EveryRunEndsInOneOfThreeWays :
    ∀ c ∈ [(0o7402#12, false, RunEnd.halted), (0o7402#12, true, .halted), (0o7000#12, true, .stepped)],
      { machine 0o0200#12 c.1 0#12 false [] with stepping := c.2.1 }.Inv ∧
      { machine 0o0200#12 c.1 0#12 false [] with stepping := c.2.1 }.running = true ∧
      { machine 0o0200#12 c.1 0#12 false [] with stepping := c.2.1 }.fault = none ∧
      (runLoop 1 { machine 0o0200#12 c.1 0#12 false [] with stepping := c.2.1 }).map (fun t => (t.fault, t.runEnd)) =
        some (none, some c.2.2) := by decide

/-- The clauses of MemoryReferenceWordDecodes at the ends of page zero and of the own page. -/
theorem witness_MemoryReferenceWordDecodes :
    memRefWord 0o1000#12 false false 0o0177#12 0o0200#12 [] = .ok 0o1377#12 ∧
    memRefWord 0o1000#12 false false 0o0200#12 0o0200#12 [] = .ok 0o1000#12 ∧
    memRefWord 0o1000#12 true true 0o0400#12 0o0200#12 [] = .ok 0o1600#12 ∧
    memRefWord 0o1000#12 true false 0o0400#12 0o0200#12 [] = .error (.pageFaultError []) := ⟨rfl, rfl, rfl, rfl⟩

theorem witness_AssembledTargetIsTheEffectiveAddress :
    0o1000#12 ∈ memRefTable.map Prod.snd ∧
    memRefWord 0o1000#12 true false 0o0250#12 0o0200#12 [] = .ok 0o1450#12 ∧ full.pc = some (0o0200#12 + 1#12) :=
  ⟨by decide, rfl, rfl⟩

theorem witness_OperateWordIgnoresOrderAndRepetition :
    ∀ v, v ∈ [0o7040#12, 0o7200#12, 0o7040#12] ↔ v ∈ [0o7200#12, 0o7040#12] := by
  intro v
  simp only [List.mem_cons, List.not_mem_nil, or_false]
  tauto

/-- A source with an error of each kind: only the SyntaxError counts; and one with an error of pass 2 alone. -/
theorem witness_SyntaxErrorsComeFirst :
    assemblyError ["TAD FOO", "TAD 18"] = some (.syntaxError "TAD 18".toList) ∧
    assemblyError ["*200", "TAD 400", "TAD FOO"] = some (.pageFaultError "TAD 400".toList) := by decide

/-- A line that defines X, a later line that does not, and an org line, whose label defines nothing. -/
theorem witness_LastDefinitionWins :
    ['Y'] ≠ ['X'] ∧
    Sys2Proof.Rules.defines ['X'] { text := [], label := some ['X'], shape := .reserve } = true ∧
    (∀ later ∈ [({ text := [], label := some ['Y'], shape := .reserve } : Stmt)],
      Sys2Proof.Rules.defines ['X'] later = false) ∧
    Sys2Proof.Rules.defines ['X'] { text := [], label := some ['X'], shape := .org 1#12 } = false := by decide

/-- 95_test_vectors L2.7: of two lines X at 0o0200 and 0o0201 the second counts. -/
theorem test_asm_redefinition : assembledWord ["*200", "X,", "X,", "JMP X"] 0o0202#12 = some 0o5001#12 := by decide

/-- A constant at 0, an org back to 0, another constant there, and an operate line at 1: the last constant and the
operate line are planted over by no later line. -/
theorem witness_ImageHoldsThePlantedWords :
    pass2 [] 0#12 { planted := [] }
        [{ text := [], label := none, shape := .constant 7#12 }, { text := [], label := none, shape := .org 0#12 },
          { text := [], label := none, shape := .constant 5#12 },
          { text := [], label := none, shape := .operate [0o7200#12, 0o7001#12] }] =
      .ok { planted := [(0, 5#12), (1, 0o7201#12)] } ∧
    0o7777#12 ∉ Sys2Proof.Rules.plantedFrom 0#12 [{ text := [], label := none, shape := .constant 7#12 }] ∧
    0#12 ∉ Sys2Proof.Rules.plantedFrom 1#12
      [{ text := [], label := none, shape := .operate [0o7200#12, 0o7001#12] }] := ⟨rfl, by decide, by decide⟩

end Sys2Proof.Tests
end

section
/-! SUPPORT. What one step does to the machine, in the terms of `Effect` (40_cycle R101 to R110), and the invariant that
every step keeps (10_state R27 to R29). -/

namespace Sys2Proof.Machine

open Sys2Proof

/-! ### The end of a stepped run changes RUN alone (R108, R109) -/

theorem endStepping_same (s : State) : s.endStepping = { s with running := s.endStepping.running } := by
  rcases endStepping_cases s with ⟨-, h⟩ | ⟨-, h⟩
  · rw [h]; rfl
  · rw [h]

@[simp] theorem endStepping_trace (s : State) : s.endStepping.trace = s.trace := by rw [endStepping_same]

@[simp] theorem endStepping_out (s : State) : s.endStepping.out = s.out := by rw [endStepping_same]

/-! ### One step -/

/-- All that a step can do to the state `t` that its fetch left, which differs from `s` in IR and PC alone: a fatal stop
of `t`, or an instruction's effect on `t` and its InstructionExecuted event; then the end of a stepped run. -/
theorem step_cases {s v : State} (h : step s = .next v) :
    ∃ t : State, t = { s with ir := t.ir, pc := t.pc } ∧
      ((∃ e, v = (t.fatal e).endStepping) ∨
        ∃ a u, t.pc.isSome ∧ Effect t u ∧
          v = (u.emit (.instructionExecuted a u.ir u.ac u.link u.pc)).endStepping) := by
  obtain ⟨hfault, -, ⟨t, ht, rfl⟩ | ⟨a, t, u, ht, hu, rfl⟩⟩ := step_next h
  · have hfatal : ∃ e, t = s.fatal e :=
      (fetch_error ht).elim (fun k => ⟨_, k.2⟩) fun ⟨_, _, _, k⟩ => ⟨_, k⟩
    obtain ⟨e, rfl⟩ := hfatal
    exact ⟨s, rfl, .inl ⟨e, rfl⟩⟩
  · obtain ⟨w, -, -, rfl⟩ := fetch_ok.1 ht
    refine ⟨{ s with ir := w, pc := some (a + 1#12) }, rfl, ?_⟩
    rcases exec_effect hu with ⟨e, rfl⟩ | eff
    · exact .inl ⟨e, rfl⟩
    · refine .inr ⟨a, u, rfl, eff, ?_⟩
      have hf : u.fault = none := eff.fault.trans hfault
      rcases emitExecuted_cases u a with ⟨-, k⟩ | ⟨k, -⟩
      · rw [k]
      · exact absurd hf k

/-! ### The streams are append-only (R29) -/

theorem Effect.trace_prefix {s t : State} (h : Effect s t) : s.trace <+: t.trace := by
  rcases h.trace with e | ⟨_, e⟩ | ⟨_, _, e⟩ <;> simp [e]

theorem Effect.out_prefix {s t : State} (h : Effect s t) : s.out <+: t.out := by
  rcases h.out with e | ⟨_, -, e⟩ <;> simp [e]

/-- Settles O45: a fatal stop leaves both streams alone, and an effect and the step's event only append. -/
theorem streamsAreAppendOnly : Obligations.StreamsAreAppendOnly := by
  intro s v h
  obtain ⟨t, ht, hv⟩ := step_cases h
  have htrace : t.trace = s.trace := by rw [ht]
  have hout : t.out = s.out := by rw [ht]
  rw [← htrace, ← hout]
  rcases hv with ⟨e, rfl⟩ | ⟨a, u, -, eff, rfl⟩
  · simp
  · simpa using ⟨eff.trace_prefix.trans (List.prefix_append _ _), eff.out_prefix⟩

/-! ### The invariant (`State.Inv`) -/

/-- A fatal stop keeps the invariant: it leaves memory and the streams alone, and stops the machine (R110, R264). -/
theorem inv_fatal {s : State} (h : s.Inv) (e : ErrorRecord) : (s.fatal e).Inv := by
  obtain ⟨hmem, -, hout, htrace, hlast⟩ := h
  exact ⟨hmem, fun _ => rfl, hout, htrace, hlast⟩

theorem inv_setRunning_false {s : State} (h : s.Inv) : (s.setRunning false).Inv := by
  obtain ⟨hmem, -, hout, htrace, hlast⟩ := h
  exact ⟨hmem, fun _ => rfl, hout, htrace, hlast⟩

theorem inv_endStepping {s : State} (h : s.Inv) : s.endStepping.Inv := by
  rcases endStepping_cases s with ⟨-, e⟩ | ⟨-, e⟩ <;> rw [e]
  · exact inv_setRunning_false h
  · exact h

theorem Effect.mem_wf {s t : State} (h : Effect s t) (wf : s.mem.wf) : t.mem.wf := by
  rcases h.mem with e | ⟨a, v, e⟩ <;> rw [e]
  · exact wf
  · exact write_wf wf a v

theorem Effect.not_running_of_fault {s t : State} (h : Effect s t) (hs : s.fault ≠ none → s.running = false) :
    t.fault ≠ none → t.running = false := fun ht =>
  h.running.elim (fun e => e.trans (hs (h.fault ▸ ht))) And.left

theorem Effect.out_ne_zero {s t : State} (h : Effect s t) (hs : ∀ v ∈ s.out, v ≠ 0#12) : ∀ v ∈ t.out, v ≠ 0#12 := by
  rcases h.out with e | ⟨w, hw, e⟩ <;> rw [e]
  · exact hs
  · exact List.forall_mem_append.2 ⟨hs, List.forall_mem_singleton.2 hw⟩

/-- The events that an instruction itself emits are no InstructionExecuted events. -/
theorem Effect.trace_namesPc {s t : State} (h : Effect s t) (hs : ∀ e ∈ s.trace, e.namesPc = true) :
    ∀ e ∈ t.trace, e.namesPc = true := by
  rcases h.trace with e | ⟨_, e⟩ | ⟨_, _, e⟩ <;> rw [e]
  · exact hs
  · exact List.forall_mem_append.2 ⟨hs, List.forall_mem_singleton.2 rfl⟩
  · exact List.forall_mem_append.2 ⟨hs, List.forall_mem_singleton.2 rfl⟩

/-- An effect alone need not keep the invariant, since HLT's Halt event ends TRACE; with the InstructionExecuted event
that follows it does (R107, R203). -/
theorem Effect.inv_emit_executed {s t : State} (eff : Effect s t) (h : s.Inv) (hpc : s.pc.isSome) (a : Word) :
    (t.emit (.instructionExecuted a t.ir t.ac t.link t.pc)).Inv := by
  obtain ⟨hmem, hfault, hout, htrace, -⟩ := h
  refine ⟨eff.mem_wf hmem, eff.not_running_of_fault hfault, eff.out_ne_zero hout, ?_, ?_⟩
  · have hevent : (TraceEvent.instructionExecuted a t.ir t.ac t.link t.pc).namesPc = true := eff.pc hpc
    exact List.forall_mem_append.2 ⟨eff.trace_namesPc htrace, List.forall_mem_singleton.2 hevent⟩
  · simp [TraceEvent.isHalt]

/-- Settles O48: the fetch touches nothing that the invariant speaks of, and what comes after it is a fatal stop, or an
effect and its InstructionExecuted event. -/
theorem stepKeepsTheInvariant : Obligations.StepKeepsTheInvariant := by
  intro s v hs h
  obtain ⟨t, ht, hv⟩ := step_cases h
  have hinv : t.Inv := by rw [ht]; exact hs
  rcases hv with ⟨e, rfl⟩ | ⟨a, u, hpc, eff, rfl⟩
  · exact inv_endStepping (inv_fatal hinv e)
  · exact inv_endStepping (eff.inv_emit_executed hinv hpc a)

/-- Settles O49: the memory and both streams of the machine after reset are empty, and it has no error record (R280). -/
theorem resetMeetsTheInvariant : Obligations.ResetMeetsTheInvariant := by
  have hmem : State.reset.mem.wf := ⟨List.Pairwise.nil, nofun⟩
  exact ⟨⟨hmem, fun _ => rfl, nofun, nofun, nofun⟩, rfl, rfl, rfl, rfl, fun _ => rfl⟩

end Sys2Proof.Machine
end

section
/-! SUPPORT. What the memory-reference and IOT instructions change, one inversion lemma each (42_memory_reference R131 to
R136, 43_iot R151 to R157), and what they leave unchanged (10_state R31). -/

namespace Sys2Proof.Machine

open Sys2Proof

/-! ### FAULT and RUN (R264, R274) -/

theorem keepsFaultAndRun_fatal (s : State) (item : Item) :
    Sys2Proof.Rules.keepsFaultAndRun s (s.fatal (.unwrittenRead s.instrAddr item)) := .inr ⟨item, rfl⟩

/-- A handler ends in the fatal stop, or in its result with all that follows from it. -/
theorem conclude_cases {s t : State} {p : Prop} {r : Except Item State} (hr : r = .ok t → p)
    (h : s.conclude r = .next t) : (∃ item, t = s.fatal (.unwrittenRead s.instrAddr item)) ∨ p :=
  (conclude_next.1 h).symm.imp (fun ⟨item, _, e⟩ => ⟨item, e⟩) hr

/-! ### The memory-reference instructions -/

section
variable {s t : State} {i z : Bool} {off : Offset}

theorem exec_and_cases (h : exec (.and i z off) s = .next t) :
    (∃ item, t = s.fatal (.unwrittenRead s.instrAddr item)) ∨
      ∃ ea x y, s.resolve i z off = .ok ea ∧ s.ac = some x ∧ s.mem.read ea = some y ∧ t = s.setAc (x &&& y) := by
  refine conclude_cases (fun k => ?_) h
  simp only [bind_ok, readAc_ok, memRead_ok, pure_ok] at k
  obtain ⟨ea, hea, x, hx, y, hy, rfl⟩ := k
  exact ⟨ea, x, y, hea, hx, hy, rfl⟩

theorem exec_tad_cases (h : exec (.tad i z off) s = .next t) :
    (∃ item, t = s.fatal (.unwrittenRead s.instrAddr item)) ∨
      ∃ ea x y, s.resolve i z off = .ok ea ∧ s.ac = some x ∧ s.mem.read ea = some y ∧
        t = (s.setAc (add12 x y).1).setLink (add12 x y).2 := by
  refine conclude_cases (fun k => ?_) h
  simp only [bind_ok, readAc_ok, memRead_ok, pure_ok] at k
  obtain ⟨ea, hea, x, hx, y, hy, rfl⟩ := k
  exact ⟨ea, x, y, hea, hx, hy, rfl⟩

theorem exec_isz_cases (h : exec (.isz i z off) s = .next t) :
    (∃ item, t = s.fatal (.unwrittenRead s.instrAddr item)) ∨
      ∃ ea y, s.resolve i z off = .ok ea ∧ s.mem.read ea = some y ∧
        ((y + 1#12 = 0#12 ∧ ∃ pc, s.pc = some pc ∧ t = (s.memWrite ea (y + 1#12)).setPc (pc + 1#12)) ∨
          (y + 1#12 ≠ 0#12 ∧ t = s.memWrite ea (y + 1#12))) := by
  refine conclude_cases (fun k => ?_) h
  simp only [bind_ok, memRead_ok] at k
  obtain ⟨ea, hea, y, hy, k⟩ := k
  refine ⟨ea, y, hea, hy, ?_⟩
  split at k
  · exact .inl ⟨‹_›, skip_ok.1 k⟩
  · exact .inr ⟨‹_›, (pure_ok.1 k).symm⟩

theorem exec_dca_cases (h : exec (.dca i z off) s = .next t) :
    (∃ item, t = s.fatal (.unwrittenRead s.instrAddr item)) ∨
      ∃ ea x, s.resolve i z off = .ok ea ∧ s.ac = some x ∧ t = (s.memWrite ea x).setAc 0#12 := by
  refine conclude_cases (fun k => ?_) h
  simp only [bind_ok, readAc_ok, pure_ok] at k
  obtain ⟨ea, hea, x, hx, rfl⟩ := k
  exact ⟨ea, x, hea, hx, rfl⟩

theorem exec_jms_cases (h : exec (.jms i z off) s = .next t) :
    (∃ item, t = s.fatal (.unwrittenRead s.instrAddr item)) ∨
      ∃ ea pc, s.resolve i z off = .ok ea ∧ s.pc = some pc ∧ t = (s.memWrite ea pc).setPc (ea + 1#12) := by
  refine conclude_cases (fun k => ?_) h
  simp only [bind_ok, readPc_ok, pure_ok] at k
  obtain ⟨ea, hea, pc, hpc, rfl⟩ := k
  exact ⟨ea, pc, hea, hpc, rfl⟩

theorem exec_jmp_cases (h : exec (.jmp i z off) s = .next t) :
    (∃ item, t = s.fatal (.unwrittenRead s.instrAddr item)) ∨
      ∃ ea, s.resolve i z off = .ok ea ∧ t = s.setPc ea := by
  refine conclude_cases (fun k => ?_) h
  simp only [bind_ok, pure_ok] at k
  obtain ⟨ea, hea, rfl⟩ := k
  exact ⟨ea, hea, rfl⟩

/-- What a store at the effective address leaves of memory, in the terms of the resolver. -/
theorem read_frame_of_store {ea v : Word} (hea : s.resolve i z off = .ok ea) (hmem : t.mem = s.mem.write ea v) :
    (∀ ea', s.resolve i z off = .ok ea' → ∀ b, b ≠ ea' → t.mem.read b = s.mem.read b) ∧
      ∀ item, s.resolve i z off = .error item → ∀ b, t.mem.read b = s.mem.read b := by
  constructor
  · intro ea' hea' b hb
    obtain rfl : ea = ea' := Except.ok.inj (hea.symm.trans hea')
    rw [hmem, read_write_ne _ _ hb]
  · intro item hitem
    cases hea.symm.trans hitem

end

/-- Settles O11: each of the three ends in the fatal stop or writes AC, AC and L, or PC alone. -/
theorem loadAndJumpFrame : Obligations.LoadAndJumpFrame := by
  intro s t i z off ins hins h
  simp only [List.mem_cons, List.not_mem_nil, or_false] at hins
  rcases hins with rfl | rfl | rfl
  · rcases exec_and_cases h with ⟨item, rfl⟩ | ⟨ea, x, y, -, -, -, rfl⟩
    · simp [keepsFaultAndRun_fatal]
    · simp [Sys2Proof.Rules.keepsFaultAndRun]
  · rcases exec_tad_cases h with ⟨item, rfl⟩ | ⟨ea, x, y, -, -, -, rfl⟩
    · simp [keepsFaultAndRun_fatal]
    · simp [Sys2Proof.Rules.keepsFaultAndRun]
  · rcases exec_jmp_cases h with ⟨item, rfl⟩ | ⟨ea, -, rfl⟩
    · simp [keepsFaultAndRun_fatal]
    · simp [Sys2Proof.Rules.keepsFaultAndRun]

/-- ISZ, DCA and JMS in one form: the fatal stop, or a store at the effective address and a write of PC or AC. -/
theorem exec_store_cases {s t : State} {i z : Bool} {off : Offset} {ins : Instr}
    (hins : ins ∈ [Instr.isz i z off, .dca i z off, .jms i z off]) (h : exec ins s = .next t) :
    (∃ item, t = s.fatal (.unwrittenRead s.instrAddr item)) ∨
      ∃ ea v, s.resolve i z off = .ok ea ∧ t = { s.memWrite ea v with ac := t.ac, pc := t.pc } ∧
        (ins ≠ .dca i z off → t.ac = s.ac) ∧ (ins = .dca i z off → t.pc = s.pc) := by
  simp only [List.mem_cons, List.not_mem_nil, or_false] at hins
  rcases hins with rfl | rfl | rfl
  · refine (exec_isz_cases h).imp_right ?_
    rintro ⟨ea, y, hea, -, ⟨-, pc, -, rfl⟩ | ⟨-, rfl⟩⟩ <;> exact ⟨ea, _, hea, rfl, fun _ => rfl, nofun⟩
  · refine (exec_dca_cases h).imp_right ?_
    rintro ⟨ea, x, hea, -, rfl⟩
    exact ⟨ea, x, hea, rfl, fun ne => absurd rfl ne, fun _ => rfl⟩
  · refine (exec_jms_cases h).imp_right ?_
    rintro ⟨ea, pc, hea, -, rfl⟩
    exact ⟨ea, pc, hea, rfl, fun _ => rfl, nofun⟩

/-- Settles O12: the fatal stop leaves all of it, and a store at the effective address all but that word. -/
theorem storeFrame : Obligations.StoreFrame := by
  intro s t i z off ins hins h
  rcases exec_store_cases hins h with ⟨item, rfl⟩ | ⟨ea, v, hea, same, hac, hpc⟩
  · simp [keepsFaultAndRun_fatal]
  · have hmem : t.mem = s.mem.write ea v := by rw [same]; rfl
    obtain ⟨hok, herror⟩ := read_frame_of_store hea hmem
    refine ⟨hok, herror, ?_, ?_, ?_, ?_, ?_, ?_, .inl ⟨?_, ?_⟩, hac, hpc⟩
    all_goals rw [same]; rfl

/-! ### The punch -/

/-- A change of PC, PF and OUT alone, which only the given operation bits of the punch can make (R152 to R155). -/
structure PunchChange (skip clear send : Bool) (s t : State) : Prop where
  same : t = { s with pc := t.pc, pf := t.pf, out := t.out }
  pc : skip = false → t.pc = s.pc
  out : send = false → t.out = s.out
  pf : skip = false → clear = false → send = false → t.pf = s.pf

section
variable {skip clear send : Bool} {s t u : State}

theorem PunchChange.refl : PunchChange skip clear send s s :=
  ⟨rfl, fun _ => rfl, fun _ => rfl, fun _ _ _ => rfl⟩

theorem PunchChange.trans (h : PunchChange skip clear send s t) (k : PunchChange skip clear send t u) :
    PunchChange skip clear send s u :=
  ⟨by rw [k.same, h.same], fun hskip => (k.pc hskip).trans (h.pc hskip), fun hsend => (k.out hsend).trans (h.out hsend),
    fun hskip hclear hsend => (k.pf hskip hclear hsend).trans (h.pf hskip hclear hsend)⟩

theorem punchSkip_change (h : punchSkip skip s = .ok t) : PunchChange skip clear send s t := by
  cases skip with
  | false => cases h; exact .refl
  | true =>
    simp only [punchSkip, if_true, bind_ok] at h
    obtain ⟨ready, -, h⟩ := h
    cases ready with
    | false => cases h; exact .refl
    | true =>
      simp only [if_true, bind_ok, skip_ok, pure_ok] at h
      obtain ⟨_, ⟨pc, -, rfl⟩, rfl⟩ := h
      split <;> exact ⟨rfl, nofun, fun _ => rfl, nofun⟩

theorem punchClear_change : PunchChange skip clear send s (punchClear clear s) := by
  cases clear with
  | false => exact .refl
  | true => exact ⟨rfl, fun _ => rfl, fun _ => rfl, nofun⟩

theorem punchSend_change (h : punchSend send s = .ok t) : PunchChange skip clear send s t := by
  cases send with
  | false => cases h; exact .refl
  | true =>
    simp only [punchSend, if_true, bind_ok, pure_ok] at h
    obtain ⟨v, -, rfl⟩ := h
    split <;> exact ⟨rfl, fun _ => rfl, nofun, nofun⟩

theorem exec_iotPunch_cases (h : exec (.iotPunch skip clear send) s = .next t) :
    (∃ item, t = s.fatal (.unwrittenRead s.instrAddr item)) ∨ PunchChange skip clear send s t := by
  refine conclude_cases (fun k => ?_) h
  obtain ⟨u, hskip, hsend⟩ := bind_ok.1 k
  exact (punchSkip_change hskip).trans <| punchClear_change.trans (punchSend_change hsend)

end

/-- Settles O17: the reader changes nothing, an unknown device is a fatal stop, and the punch ends in one or changes what
its bits allow. -/
theorem iotFrame : Obligations.IotFrame := by
  intro s t ins ops skip clear send dev hins h
  simp only [List.mem_cons, List.not_mem_nil, or_false] at hins
  rcases hins with rfl | rfl | rfl
  · cases h
    simp [Sys2Proof.Rules.keepsFaultAndRun]
  · rcases exec_iotPunch_cases h with ⟨item, rfl⟩ | ⟨same, hpc, hout, hpf⟩
    · simp [keepsFaultAndRun_fatal]
    · simp only [ne_eq, not_true_eq_false, false_implies, true_and]
      refine ⟨?_, ?_, fun b => ?_, ?_, ?_, ?_, ?_, fun _ => .inl ⟨?_, ?_⟩, fun _ => ⟨hpc, hout, hpf⟩⟩
      all_goals rw [same]
  · cases h
    simp

end Sys2Proof.Machine
end

section
/-! SUPPORT. What the operate instructions change: which of AC, L, PC, TRACE and RUN each bit can touch
(44_operate_group1, 45_operate_group2), what they leave unchanged (10_state R31), and the rotates as rotations of L:AC
(10_state R22). -/

namespace Sys2Proof.Machine

open Sys2Proof

/-! ### Group 1 (R170 to R184) -/

/-- The bits of R64 that stand for a Group-1 instruction, named or not; no bits for any other instruction. -/
def group1Bits : Instr → Group1
  | .oprGroup1 g => g
  | .iac => { iac := true }
  | .ral => { ral := true }
  | .rtl => { ral := true, two := true }
  | .rar => { rar := true }
  | .rtr => { rar := true, two := true }
  | .cml => { cml := true }
  | .cma => { cma := true }
  | .cll => { cll := true }
  | .cla => { cla := true }
  | _ => {}

/-- A change of AC, L and the draw counter alone, each only where a bit of `g` acts on it. -/
structure Group1BitsFrame (g : Group1) (s t : State) : Prop where
  same : t = { s with ac := t.ac, link := t.link, draws := t.draws }
  ac : Sys2Proof.Rules.writesAc g = false → t.ac = s.ac
  link : Sys2Proof.Rules.writesLink g = false → t.link = s.link
  draws : (g.rar && g.ral) = false → t.draws = s.draws

section
variable {g : Group1} {s t u : State}

theorem Group1BitsFrame.refl : Group1BitsFrame g s s := ⟨rfl, fun _ => rfl, fun _ => rfl, fun _ => rfl⟩

theorem Group1BitsFrame.trans (h : Group1BitsFrame g s t) (k : Group1BitsFrame g t u) : Group1BitsFrame g s u :=
  ⟨by rw [k.same, h.same], fun hac => (k.ac hac).trans (h.ac hac), fun hlink => (k.link hlink).trans (h.link hlink),
    fun hdraws => (k.draws hdraws).trans (h.draws hdraws)⟩

theorem microCla_frame (hg : g.cla = true) (h : microCla s = .ok t) : Group1BitsFrame g s t := by
  cases h
  exact ⟨rfl, by simp [Sys2Proof.Rules.writesAc, hg], fun _ => rfl, fun _ => rfl⟩

theorem microCll_frame (hg : g.cll = true) (h : microCll s = .ok t) : Group1BitsFrame g s t := by
  cases h
  exact ⟨rfl, fun _ => rfl, by simp [Sys2Proof.Rules.writesLink, hg], fun _ => rfl⟩

theorem microCma_frame (hg : g.cma = true) (h : microCma s = .ok t) : Group1BitsFrame g s t := by
  simp only [microCma, bind_ok, pure_ok] at h
  obtain ⟨_, -, rfl⟩ := h
  exact ⟨rfl, by simp [Sys2Proof.Rules.writesAc, hg], fun _ => rfl, fun _ => rfl⟩

theorem microCml_frame (hg : g.cml = true) (h : microCml s = .ok t) : Group1BitsFrame g s t := by
  simp only [microCml, bind_ok, pure_ok] at h
  obtain ⟨_, -, rfl⟩ := h
  exact ⟨rfl, fun _ => rfl, by simp [Sys2Proof.Rules.writesLink, hg], fun _ => rfl⟩

/-- A write of both AC and L by a word that acts on both. -/
theorem group1BitsFrame_setAc_setLink (hac : Sys2Proof.Rules.writesAc g = true) (hlink : Sys2Proof.Rules.writesLink g = true)
    (x : Word) (l : Bool) : Group1BitsFrame g s ((s.setAc x).setLink l) :=
  ⟨rfl, by simp [hac], by simp [hlink], fun _ => rfl⟩

theorem microIac_frame (hg : g.iac = true) (h : microIac s = .ok t) : Group1BitsFrame g s t := by
  simp only [microIac, bind_ok, pure_ok] at h
  obtain ⟨_, -, rfl⟩ := h
  exact group1BitsFrame_setAc_setLink (by simp [Sys2Proof.Rules.writesAc, hg]) (by simp [Sys2Proof.Rules.writesLink, hg]) _ _

theorem microRar_frame (hg : g.rar = true) (h : microRar s = .ok t) : Group1BitsFrame g s t := by
  simp only [microRar, bind_ok, pure_ok] at h
  obtain ⟨_, -, _, -, rfl⟩ := h
  exact group1BitsFrame_setAc_setLink (by simp [Sys2Proof.Rules.writesAc, hg]) (by simp [Sys2Proof.Rules.writesLink, hg]) _ _

theorem microRal_frame (hg : g.ral = true) (h : microRal s = .ok t) : Group1BitsFrame g s t := by
  simp only [microRal, bind_ok, pure_ok] at h
  obtain ⟨_, -, _, -, rfl⟩ := h
  exact group1BitsFrame_setAc_setLink (by simp [Sys2Proof.Rules.writesAc, hg]) (by simp [Sys2Proof.Rules.writesLink, hg]) _ _

theorem microDraw_frame (hrar : g.rar = true) (hral : g.ral = true) (h : microDraw s = .ok t) : Group1BitsFrame g s t := by
  simp only [microDraw, bind_ok, pure_ok] at h
  obtain ⟨_, -, _, -, rfl⟩ := h
  refine ⟨rfl, ?_, ?_, ?_⟩ <;> simp [Sys2Proof.Rules.writesAc, Sys2Proof.Rules.writesLink, hrar, hral]

theorem microIf_frame {enabled : Bool} {op : State → Except Item State}
    (hop : ∀ {s t}, enabled = true → op s = .ok t → Group1BitsFrame g s t) (h : microIf enabled op s = .ok t) :
    Group1BitsFrame g s t := by
  cases enabled with
  | false => cases h; exact .refl
  | true => exact hop rfl h

theorem microRepeat_frame {op : State → Except Item State} (hop : ∀ {s t}, op s = .ok t → Group1BitsFrame g s t)
    {two : Bool} (h : microRepeat two op s = .ok t) : Group1BitsFrame g s t := by
  cases two with
  | false => exact hop h
  | true =>
    obtain ⟨u, hfirst, hsecond⟩ := bind_ok.1 h
    exact (hop hfirst).trans (hop hsecond)

theorem microRotate_frame (h : microRotate g s = .ok t) : Group1BitsFrame g s t := by
  unfold microRotate at h
  split at h
  case h_1 => cases h; exact .refl
  case h_2 hrar _ => exact microRepeat_frame (microRar_frame hrar) h
  case h_3 _ hral => exact microRepeat_frame (microRal_frame hral) h
  case h_4 hrar hral => exact microDraw_frame hrar hral h

theorem group1Sequence_frame (h : group1Sequence g s = .ok t) : Group1BitsFrame g s t := by
  simp only [group1Sequence, bind_ok] at h
  obtain ⟨_, hcla, _, hcll, _, hcma, _, hcml, _, hiac, hrotate⟩ := h
  exact (microIf_frame microCla_frame hcla).trans <| (microIf_frame microCll_frame hcll).trans <|
    (microIf_frame microCma_frame hcma).trans <| (microIf_frame microCml_frame hcml).trans <|
    (microIf_frame microIac_frame hiac).trans (microRotate_frame hrotate)

/-- Every Group-1 instruction, named or not, ends in the fatal stop or changes what its bits act on. -/
theorem exec_group1_cases {ins : Instr} (hins : ins ∈ Sys2Proof.Rules.group1Instrs g) (h : exec ins s = .next t) :
    (∃ item, t = s.fatal (.unwrittenRead s.instrAddr item)) ∨ Group1BitsFrame (group1Bits ins) s t := by
  simp only [Sys2Proof.Rules.group1Instrs, List.mem_cons, List.not_mem_nil, or_false] at hins
  obtain rfl | rfl | rfl | rfl | rfl | rfl | rfl | rfl | rfl | rfl | rfl := hins
  · exact conclude_cases group1Sequence_frame h
  · cases h; exact .inr .refl
  · exact conclude_cases (microIac_frame rfl) h
  · exact conclude_cases (microRal_frame rfl) h
  · exact conclude_cases (microRepeat_frame (microRal_frame rfl)) h
  · exact conclude_cases (microRar_frame rfl) h
  · exact conclude_cases (microRepeat_frame (microRar_frame rfl)) h
  · exact conclude_cases (microCml_frame rfl) h
  · exact conclude_cases (microCma_frame rfl) h
  · exact conclude_cases (microCll_frame rfl) h
  · exact conclude_cases (microCla_frame rfl) h

/-- Only the generic instruction can stand for both rotates at once. -/
theorem group1Bits_not_both_rotates {ins : Instr} (hins : ins ∈ Sys2Proof.Rules.group1Instrs g)
    (hg : g.rar = false ∨ g.ral = false) : ((group1Bits ins).rar && (group1Bits ins).ral) = false := by
  have named : ∀ j ∈ (Sys2Proof.Rules.group1Instrs {}).tail, ((group1Bits j).rar && (group1Bits j).ral) = false := by
    decide
  rcases List.mem_cons.1 hins with rfl | hins
  · exact Bool.and_eq_false_iff.2 hg
  · exact named ins hins

end

/-- Settles O29: a Group-1 instruction ends in the fatal stop, or changes AC, L and the draw counter where its bits act
on them. -/
theorem group1Frame : Obligations.Group1Frame := by
  intro s t g ins hins h
  rcases exec_group1_cases hins h with ⟨item, rfl⟩ | ⟨same, hac, hlink, hdraws⟩
  · simp [keepsFaultAndRun_fatal]
  · have nop_cml_cll : ∀ j ∈ [Instr.nop, .cml, .cll], Sys2Proof.Rules.writesAc (group1Bits j) = false := by decide
    have nop_cma_cla : ∀ j ∈ [Instr.nop, .cma, .cla], Sys2Proof.Rules.writesLink (group1Bits j) = false := by decide
    have generic : ins = .oprGroup1 g → g.iac = false → g.rar = false → g.ral = false →
        (g.cla = false → g.cma = false → t.ac = s.ac) ∧ (g.cll = false → g.cml = false → t.link = s.link) := by
      rintro rfl hiac hrar hral
      exact ⟨fun hcla hcma => hac (by simp [group1Bits, Sys2Proof.Rules.writesAc, *]),
        fun hcll hcml => hlink (by simp [group1Bits, Sys2Proof.Rules.writesLink, *])⟩
    refine ⟨?_, ?_, ?_, fun b => ?_, ?_, ?_, ?_, .inl ⟨?_, ?_⟩,
      fun hg => hdraws (group1Bits_not_both_rotates hins hg), fun hj => hac (nop_cml_cll ins hj),
      fun hj => hlink (nop_cma_cla ins hj), generic⟩
    all_goals rw [same]

/-! ### Group 2 (R190 to R206) -/

/-- The bits of R65 that stand for a Group-2 instruction, named or not; no bits for any other instruction. -/
def group2Bits : Instr → Group2
  | .oprGroup2 g => g
  | .hlt => { hlt := true }
  | .skp => { andFamily := true }
  | .snl => { link := true }
  | .szl => { link := true, andFamily := true }
  | .sza => { zero := true }
  | .sna => { zero := true, andFamily := true }
  | .sma => { sign := true }
  | .spa => { sign := true, andFamily := true }
  | .claGroup2 => { cla := true }
  | _ => {}

/-- Whether a Group-2 word can skip: the OR family without a condition never does (R192, R201). -/
def maySkip (g : Group2) : Bool := g.andFamily || g.sign || g.zero || g.link

/-- A change of AC, PC, TRACE and RUN alone, each only where a bit of `g` acts on it. -/
structure Group2BitsFrame (g : Group2) (s t : State) : Prop where
  same : t = { s with ac := t.ac, pc := t.pc, trace := t.trace, running := t.running }
  ac : g.cla = false → t.ac = s.ac
  pc : maySkip g = false → t.pc = s.pc
  trace : g.hlt = false → t.trace = s.trace
  running : g.hlt = false → t.running = s.running

section
variable {g : Group2} {s t u : State}

theorem Group2BitsFrame.refl : Group2BitsFrame g s s :=
  ⟨rfl, fun _ => rfl, fun _ => rfl, fun _ => rfl, fun _ => rfl⟩

theorem Group2BitsFrame.trans (h : Group2BitsFrame g s t) (k : Group2BitsFrame g t u) : Group2BitsFrame g s u :=
  ⟨by rw [k.same, h.same], fun hac => (k.ac hac).trans (h.ac hac), fun hpc => (k.pc hpc).trans (h.pc hpc),
    fun hhlt => (k.trace hhlt).trans (h.trace hhlt), fun hhlt => (k.running hhlt).trans (h.running hhlt)⟩

/-- Without the AND family and without a condition the skip test is false, whatever has a value. -/
theorem skipTest_of_not_maySkip (hg : maySkip g = false) : s.skipTest g = .ok false := by
  simp only [maySkip, Bool.or_eq_false_iff] at hg
  obtain ⟨⟨⟨hfamily, hsign⟩, hzero⟩, hlink⟩ := hg
  simp [State.skipTest, State.orFamilySkip, condition, hfamily, hsign, hzero, hlink, pure, Except.pure]

theorem skip_frame (hg : maySkip g = true) (h : s.skip = .ok t) : Group2BitsFrame g s t := by
  obtain ⟨pc, -, rfl⟩ := skip_ok.1 h
  exact ⟨rfl, fun _ => rfl, by simp [hg], fun _ => rfl, fun _ => rfl⟩

theorem skipIf_frame {c : Bool} (hg : c = true → maySkip g = true) (h : skipIf c s = .ok t) : Group2BitsFrame g s t := by
  cases c with
  | false => cases h; exact .refl
  | true => exact skip_frame (hg rfl) h

theorem skipOn_frame (hg : maySkip g = true) {test : Except Item Bool} (h : skipOn test s = .ok t) :
    Group2BitsFrame g s t := by
  obtain ⟨c, -, hskip⟩ := bind_ok.1 h
  exact skipIf_frame (fun _ => hg) hskip

theorem clearIf_frame : Group2BitsFrame g s (clearIf g.cla s) := by
  unfold clearIf
  split
  · exact ⟨rfl, by simp [*], fun _ => rfl, fun _ => rfl, fun _ => rfl⟩
  · exact .refl

theorem microHlt_frame (hg : g.hlt = true) (h : microHlt s = .ok t) : Group2BitsFrame g s t := by
  obtain ⟨pc, -, rfl⟩ := microHlt_ok.1 h
  exact ⟨rfl, fun _ => rfl, fun _ => rfl, by simp [hg], by simp [hg]⟩

theorem group2Sequence_frame (h : group2Sequence g s = .ok t) : Group2BitsFrame g s t := by
  simp only [group2Sequence, bind_ok] at h
  obtain ⟨c, htest, u, hskip, hend⟩ := h
  have hc : c = true → maySkip g = true := by
    rintro rfl
    by_contra hg
    cases htest.symm.trans (skipTest_of_not_maySkip (Bool.eq_false_of_not_eq_true hg))
  have hclear : Group2BitsFrame g s (clearIf g.cla u) := (skipIf_frame hc hskip).trans clearIf_frame
  split at hend
  case isTrue hg => exact hclear.trans (microHlt_frame hg hend)
  case isFalse => rw [← pure_ok.1 hend]; exact hclear

/-- Every Group-2 instruction, named or not, ends in the fatal stop or changes what its bits act on. -/
theorem exec_group2_cases {ins : Instr} (hins : ins ∈ Sys2Proof.Rules.group2Instrs g) (h : exec ins s = .next t) :
    (∃ item, t = s.fatal (.unwrittenRead s.instrAddr item)) ∨ Group2BitsFrame (group2Bits ins) s t := by
  simp only [Sys2Proof.Rules.group2Instrs, List.mem_cons, List.not_mem_nil, or_false] at hins
  obtain rfl | rfl | rfl | rfl | rfl | rfl | rfl | rfl | rfl | rfl | rfl := hins
  · exact conclude_cases group2Sequence_frame h
  · exact conclude_cases (microHlt_frame rfl) h
  · exact conclude_cases (skip_frame rfl) h
  · exact conclude_cases (skipOn_frame rfl) h
  · exact conclude_cases (skipOn_frame rfl) h
  · exact conclude_cases (skipOn_frame rfl) h
  · exact conclude_cases (skipOn_frame rfl) h
  · exact conclude_cases (skipOn_frame rfl) h
  · exact conclude_cases (skipOn_frame rfl) h
  · cases h; exact .inr (clearIf_frame (g := { cla := true }))
  · cases h; exact .inr .refl

/-- Only CLA of Group 2 and a generic word with its bit stand for the clear. -/
theorem group2Bits_cla {ins : Instr} (hins : ins ∈ Sys2Proof.Rules.group2Instrs g) (hcla : ins ≠ .claGroup2)
    (hg : ins = .oprGroup2 g → g.cla = false) : (group2Bits ins).cla = false := by
  have named : ∀ j ∈ (Sys2Proof.Rules.group2Instrs {}).tail, j ≠ .claGroup2 → (group2Bits j).cla = false := by decide
  rcases List.mem_cons.1 hins with rfl | hins
  · exact hg rfl
  · exact named ins hins hcla

/-- Only HLT and a generic word with its bit stand for the halt. -/
theorem group2Bits_hlt {ins : Instr} (hins : ins ∈ Sys2Proof.Rules.group2Instrs g) (hhlt : ins ≠ .hlt)
    (hg : ins = .oprGroup2 g → g.hlt = false) : (group2Bits ins).hlt = false := by
  have named : ∀ j ∈ (Sys2Proof.Rules.group2Instrs {}).tail, j ≠ .hlt → (group2Bits j).hlt = false := by decide
  rcases List.mem_cons.1 hins with rfl | hins
  · exact hg rfl
  · exact named ins hins hhlt

end

/-- Settles O36: a Group-2 instruction ends in the fatal stop, or changes AC, PC, TRACE and RUN where its bits act on
them. -/
theorem group2Frame : Obligations.Group2Frame := by
  intro s t g ins hins h
  rcases exec_group2_cases hins h with ⟨item, rfl⟩ | ⟨same, hac, hpc, htrace, hrunning⟩
  · exact ⟨rfl, rfl, rfl, fun _ => rfl, rfl, rfl, rfl, fun _ _ => rfl, fun _ => rfl,
      fun _ _ => ⟨rfl, keepsFaultAndRun_fatal s item⟩, .inr ⟨item, rfl⟩⟩
  · have hfault : t.fault = s.fault := by rw [same]
    have noskip : ∀ j ∈ [Instr.hlt, .claGroup2, .oprGroup2NoBits], maySkip (group2Bits j) = false := by decide
    refine ⟨?_, ?_, ?_, fun b => ?_, ?_, ?_, ?_, fun hcla hg => hac (group2Bits_cla hins hcla hg),
      fun hj => hpc (noskip ins hj), fun hhlt hg => ?halt, .inl hfault⟩
    case halt =>
      have hbit := group2Bits_hlt hins hhlt hg
      exact ⟨htrace hbit, .inl ⟨hfault, hrunning hbit⟩⟩
    all_goals rw [same]

/-! ### The rotates (R22, R177 to R180) -/

theorem rotateRight_zero (e : BitVec 13) : e.rotateRight 0 = e := by
  ext k hk
  simp [BitVec.getElem_rotateRight, hk]

theorem rotateLeft_zero (e : BitVec 13) : e.rotateLeft 0 = e := by
  ext k hk
  simp [BitVec.getElem_rotateLeft]

/-- L:AC bit by bit: AC's twelve, then L (R22). -/
theorem getElem_extended (x : Word) (l : Bool) {k : Nat} (hk : k < 13) :
    (extended x l)[k] = if h : k < 12 then x[k] else l :=
  (BitVec.getElem_append (x := BitVec.ofBool l) (y := x) hk).trans (by simp)

theorem getElem_linkBit (l : Bool) {k : Nat} (hk : k < 12) : (linkBit l)[k] = (l && decide (k = 0)) := by
  cases l <;> simp [linkBit]

/-- R177 on L:AC: AC's upper bits move down, L comes in at AC's top, and AC's lowest bit becomes L. -/
theorem extended_rotateRight (x : Word) (l : Bool) :
    extended (rotateRight x l).1 (rotateRight x l).2 = (extended x l).rotateRight 1 := by
  ext k hk
  simp only [BitVec.getElem_rotateRight, getElem_extended, rotateRight, BitVec.getElem_or, BitVec.getElem_shiftLeft,
    BitVec.getElem_ushiftRight, getElem_linkBit]
  obtain hk | rfl | rfl : k < 11 ∨ k = 11 ∨ k = 12 := by omega
  · have hlt : k < 12 ∧ 1 + k < 12 := by omega
    simp [*]
  · simp
  · simp

/-- R178 on L:AC: L comes in at AC's bottom, AC's lower bits move up, and AC's highest bit becomes L. -/
theorem extended_rotateLeft (x : Word) (l : Bool) :
    extended (rotateLeft x l).1 (rotateLeft x l).2 = (extended x l).rotateLeft 1 := by
  ext k hk
  simp only [BitVec.getElem_rotateLeft, getElem_extended, rotateLeft, BitVec.getElem_or, BitVec.getElem_shiftLeft,
    getElem_linkBit]
  obtain rfl | ⟨hpos, hk⟩ | rfl : k = 0 ∨ (0 < k ∧ k < 12) ∨ k = 12 := by omega
  · simp
  · have hne : k ≠ 0 ∧ k - 1 < 12 := by omega
    simp [*]
  · simp

theorem rotateRight_one_one (e : BitVec 13) : (e.rotateRight 1).rotateRight 1 = e.rotateRight 2 := by
  ext k hk
  simp only [BitVec.getElem_rotateRight]
  grind

theorem rotateLeft_one_one (e : BitVec 13) : (e.rotateLeft 1).rotateLeft 1 = e.rotateLeft 2 := by
  ext k hk
  simp only [BitVec.getElem_rotateLeft]
  grind

section
variable {s : State} {x : Word} {l : Bool}

theorem microRar_of_values (hac : s.ac = some x) (hlink : s.link = some l) :
    microRar s = .ok ((s.setAc (rotateRight x l).1).setLink (rotateRight x l).2) := by
  simp only [microRar, readLink_ok.2 hlink, readAc_ok.2 hac, ok_bind]
  rfl

theorem microRal_of_values (hac : s.ac = some x) (hlink : s.link = some l) :
    microRal s = .ok ((s.setAc (rotateLeft x l).1).setLink (rotateLeft x l).2) := by
  simp only [microRal, readLink_ok.2 hlink, readAc_ok.2 hac, ok_bind]
  rfl

theorem microRar_extended (hac : s.ac = some x) (hlink : s.link = some l) :
    ∃ t x' l', microRar s = .ok t ∧ t.ac = some x' ∧ t.link = some l' ∧
      extended x' l' = (extended x l).rotateRight 1 :=
  ⟨_, _, _, microRar_of_values hac hlink, rfl, rfl, extended_rotateRight x l⟩

theorem microRal_extended (hac : s.ac = some x) (hlink : s.link = some l) :
    ∃ t x' l', microRal s = .ok t ∧ t.ac = some x' ∧ t.link = some l' ∧
      extended x' l' = (extended x l).rotateLeft 1 :=
  ⟨_, _, _, microRal_of_values hac hlink, rfl, rfl, extended_rotateLeft x l⟩

theorem microRepeat_microRar_extended (hac : s.ac = some x) (hlink : s.link = some l) :
    ∃ t x' l', microRepeat true microRar s = .ok t ∧ t.ac = some x' ∧ t.link = some l' ∧
      extended x' l' = (extended x l).rotateRight 2 := by
  obtain ⟨t, y, m, hfirst, hy, hm, heq⟩ := microRar_extended hac hlink
  obtain ⟨u, z, n, hsecond, hz, hn, heq'⟩ := microRar_extended hy hm
  exact ⟨u, z, n, bind_ok.2 ⟨t, hfirst, hsecond⟩, hz, hn, by rw [heq', heq, rotateRight_one_one]⟩

theorem microRepeat_microRal_extended (hac : s.ac = some x) (hlink : s.link = some l) :
    ∃ t x' l', microRepeat true microRal s = .ok t ∧ t.ac = some x' ∧ t.link = some l' ∧
      extended x' l' = (extended x l).rotateLeft 2 := by
  obtain ⟨t, y, m, hfirst, hy, hm, heq⟩ := microRal_extended hac hlink
  obtain ⟨u, z, n, hsecond, hz, hn, heq'⟩ := microRal_extended hy hm
  exact ⟨u, z, n, bind_ok.2 ⟨t, hfirst, hsecond⟩, hz, hn, by rw [heq', heq, rotateLeft_one_one]⟩

end

/-- Settles O28: one rotate turns L:AC by one place, and RTR and RTL do theirs twice. -/
theorem rotatesTurnTheExtendedRegister : Obligations.RotatesTurnTheExtendedRegister := by
  intro s x l hac hlink c hc
  simp only [List.mem_cons, List.not_mem_nil, or_false] at hc
  rcases hc with rfl | rfl | rfl | rfl
  · obtain ⟨t, x', l', h, hx, hl, heq⟩ := microRar_extended hac hlink
    exact ⟨t, x', l', conclude_of_ok h, hx, hl, by rw [heq, rotateLeft_zero]⟩
  · obtain ⟨t, x', l', h, hx, hl, heq⟩ := microRepeat_microRar_extended hac hlink
    exact ⟨t, x', l', conclude_of_ok h, hx, hl, by rw [heq, rotateLeft_zero]⟩
  · obtain ⟨t, x', l', h, hx, hl, heq⟩ := microRal_extended hac hlink
    exact ⟨t, x', l', conclude_of_ok h, hx, hl, by rw [heq, rotateRight_zero]⟩
  · obtain ⟨t, x', l', h, hx, hl, heq⟩ := microRepeat_microRal_extended hac hlink
    exact ⟨t, x', l', conclude_of_ok h, hx, hl, by rw [heq, rotateRight_zero]⟩

end Sys2Proof.Machine
end

section
/-! SUPPORT. Every instruction answers a next state (20_memory R50; 60_exceptions R264, R268), and what the host reads
and writes in memory: single words (R57) and the wholesale load (R58). -/

namespace Sys2Proof.Machine

open Sys2Proof

/-! ### No instruction is turned away -/

/-- A handler answers a next state, whether it succeeds or reads an item without a value (R264, R274). -/
theorem conclude_answers (s : State) (r : Except Item State) : ∃ t, s.conclude r = .next t := by
  cases r with
  | ok t => exact ⟨t, conclude_ok s t⟩
  | error item => exact ⟨_, conclude_error s item⟩

/-- Settles O39: eight instructions read no item that could lack a value, so their next state is there by definition;
all the others end in `State.conclude`. -/
theorem everyInstructionAnswersANextState : Obligations.EveryInstructionAnswersANextState := by
  intro i s
  cases i
  case iotReader | iotUnknown | oprNeither | nop | cll | cla | claGroup2 | oprGroup2NoBits => exact ⟨_, rfl⟩
  all_goals exact conclude_answers s _

/-! ### The host's store and load (R57) -/

section
variable {addr w : Nat} {s : State}

theorem hostStore_of_lt (h : addr < 4096) : hostStore addr w s = .next (s.setMem (BitVec.ofNat 12 addr) (maskWord w)) :=
  if_pos h

theorem hostStore_of_le (h : 4096 ≤ addr) : hostStore addr w s = .refused .hostAddressOutOfRange := if_neg h.not_gt

theorem hostLoad_of_lt (h : addr < 4096) : hostLoad addr s = .ok (s.mem.read (BitVec.ofNat 12 addr)) := if_pos h

theorem hostLoad_of_le (h : 4096 ≤ addr) : hostLoad addr s = .error .hostAddressOutOfRange := if_neg h.not_gt

end

/-- Settles O51: below 4096 the store is one write of the cell that the load reads, and above 4095 both are refused. -/
theorem hostStoreThenLoad : Obligations.HostStoreThenLoad := by
  refine fun s addr w => ⟨fun hlt => ?_, fun hle => ⟨hostStore_of_le hle, hostLoad_of_le hle⟩⟩
  refine ⟨_, maskWord w, hostStore_of_lt hlt, ?_, BitVec.toNat_ofNat w 12, fun b hb => ?_, rfl⟩
  · rw [hostLoad_of_lt hlt]
    exact congrArg _ (read_write_same s.mem _ _)
  · have hne : b ≠ BitVec.ofNat 12 addr := fun e => hb (by rw [e, BitVec.toNat_ofNat, Nat.mod_eq_of_lt hlt])
    exact read_write_ne s.mem _ hne

/-! ### The wholesale load (R58)

The two equations of `hostLoadImage` are proved by `simp only`: `rfl` would lay out the list of all 4096 cells. -/

/-- A memory that lists `f k` for each address number `k` of a list holds `f k` at each of them. -/
theorem lookup_map_of_mem (f : Nat → Word) {ks : List Nat} {k : Nat} (h : k ∈ ks) :
    Memory.lookup (ks.map fun j => (j, f j)) k = some (f k) := by
  induction ks with
  | nil => cases h
  | cons j ks ih =>
    simp only [List.map_cons, Memory.lookup]
    split
    case isTrue e => rw [e]
    case isFalse hne => exact ih ((List.mem_cons.1 h).resolve_left hne)

/-- A memory that lists a word for each address number, in order, is canonical (R27). -/
theorem map_range_wf (f : Nat → Word) : Memory.wf ((List.range 4096).map fun k => (k, f k)) := by
  constructor
  · have hkeys : ((List.range 4096).map fun k => (k, f k)).map Prod.fst = List.range 4096 := by
      simp [Function.comp_def]
    rw [hkeys]
    exact List.pairwise_lt_range
  · intro c hc
    obtain ⟨k, hk, rfl⟩ := List.mem_map.1 hc
    exact List.mem_range.1 hk

theorem hostLoadImage_mem (img : Image) (s : State) :
    (hostLoadImage img s).mem = (List.range 4096).map fun k => (k, img.word (BitVec.ofNat 12 k)) := by
  simp only [hostLoadImage]

theorem hostLoadImage_same (img : Image) (s : State) :
    hostLoadImage img s = { s with mem := (hostLoadImage img s).mem } := by
  simp only [hostLoadImage]

theorem hostLoadImage_read (img : Image) (s : State) (a : Word) :
    (hostLoadImage img s).mem.read a = some (img.word a) := by
  have hmem : a.toNat ∈ List.range 4096 := List.mem_range.2 a.isLt
  rw [hostLoadImage_mem, Memory.read, lookup_map_of_mem (fun k => img.word (BitVec.ofNat 12 k)) hmem,
    BitVec.ofNat_toNat, BitVec.setWidth_eq]

theorem hostLoadImage_mem_wf (img : Image) (s : State) : (hostLoadImage img s).mem.wf := by
  rw [hostLoadImage_mem]
  exact map_range_wf _

/-- Settles O52: the loaded memory lists the image's word for each of the 4096 addresses, in order. -/
theorem loadImageReplacesEveryCell : Obligations.LoadImageReplacesEveryCell :=
  fun img s => ⟨hostLoadImage_read img s, hostLoadImage_mem_wf img s, hostLoadImage_same img s⟩

end Sys2Proof.Machine
end

section
/-! SUPPORT. Decoding undoes encoding: the fields of each format's words read back (30_encoding R61 to R65), the words
with a row of their own kept apart from the generic ones (R68, R71), and the round trip. -/

namespace Sys2Proof

open Sys2Proof.Laws

/-! ### Memory-reference words (R61) -/

section
variable (op : BitVec 3) (i z : Bool) (off : Offset)

theorem getLsbD_eight_encodeMemRef : (encodeMemRef op i z off).getLsbD 8 = i := by
  simp only [encodeMemRef, BitVec.getLsbD_cast, BitVec.getLsbD_append]
  simp

theorem getLsbD_seven_encodeMemRef : (encodeMemRef op i z off).getLsbD 7 = z := by
  simp only [encodeMemRef, BitVec.getLsbD_cast, BitVec.getLsbD_append]
  simp

theorem offsetField_encodeMemRef : offsetField (encodeMemRef op i z off) = off :=
  BitVec.extractLsb'_append_eq_right

end

/-! ### IOT words (R62) -/

section
variable (dev : BitVec 6) (ops : BitVec 3)

theorem deviceField_encodeIot : deviceField (encodeIot dev ops) = dev :=
  (BitVec.extractLsb'_append_eq_of_le (by decide)).trans BitVec.extractLsb'_append_eq_right

theorem opsField_encodeIot : opsField (encodeIot dev ops) = ops := BitVec.extractLsb'_append_eq_right

theorem decode_encodeIot : decode (encodeIot dev ops) = decodeIot (encodeIot dev ops) := by
  simp [decode, opcodeField_encodeIot]

theorem decode_encode_iotReader : decode (encode (.iotReader ops)) = .iotReader ops := by
  rw [encode, decode_encodeIot, decodeIot, deviceField_encodeIot, opsField_encodeIot, if_pos rfl]

/-- The punch has eight words, one per combination of its operation bits. -/
theorem decode_encode_iotPunch : ∀ skip clear send : Bool,
    decode (encode (.iotPunch skip clear send)) = .iotPunch skip clear send := by decide

theorem decode_encode_iotUnknown {dev : BitVec 6} (h : knownDevice dev = false) :
    decode (encode (.iotUnknown dev ops)) = .iotUnknown dev ops := by
  simp only [knownDevice, Bool.or_eq_false_iff, beq_eq_false_iff_ne] at h
  obtain ⟨hreader, hpunch⟩ := h
  rw [encode, decode_encodeIot, decodeIot, deviceField_encodeIot, opsField_encodeIot, if_neg hreader, if_neg hpunch]

end

/-! ### Operate words (R63 to R65) -/

theorem decode_of_opr {w : Word} (h : opcodeField w = 0o7#3) : decode w = decodeOpr w := by
  simp [decode, h]

theorem group1Field_encodeGroup1 (g : Group1) : group1Field (encodeGroup1 g) = g := by
  simp only [group1Field, encodeGroup1, BitVec.getLsbD_cast, BitVec.getLsbD_append]
  simp

theorem group2Field_encodeGroup2 (g : Group2) : group2Field (encodeGroup2 g) = g := by
  simp only [group2Field, encodeGroup2, BitVec.getLsbD_cast, BitVec.getLsbD_append]
  simp

theorem decodeOpr_encodeGroup1 (g : Group1) : decodeOpr (encodeGroup1 g) = decodeGroup1 (encodeGroup1 g) := by
  have hselector : (encodeGroup1 g).getLsbD 8 = false := by
    simp only [encodeGroup1, BitVec.getLsbD_cast, BitVec.getLsbD_append]
    simp
  exact if_neg (Bool.eq_false_iff.1 hselector)

theorem decodeOpr_encodeGroup2 (g : Group2) : decodeOpr (encodeGroup2 g) = decodeGroup2 (encodeGroup2 g) := by
  obtain ⟨hselector, hlowest⟩ : (encodeGroup2 g).getLsbD 8 = true ∧ (encodeGroup2 g).getLsbD 0 = false := by
    simp only [encodeGroup2, BitVec.getLsbD_cast, BitVec.getLsbD_append]
    simp
  exact (if_pos hselector).trans (if_neg (Bool.eq_false_iff.1 hlowest))

/-- A word whose bits are in no row of R71's Group-1 table is none of the words that `decodeGroup1` tries first. -/
theorem decodeGroup1_of_unnamed {w : Word} (h : group1Field w ∉ namedGroup1) :
    decodeGroup1 w = .oprGroup1 (group1Field w) := by
  have hne {v : Word} (hv : group1Field v ∈ namedGroup1) : w ≠ v := fun e => h (e ▸ hv)
  rw [decodeGroup1]
  iterate 10 rw [if_neg (hne (by decide))]

/-- A word whose bits are in no row of R71's Group-2 table is none of the words that `decodeGroup2` tries first. -/
theorem decodeGroup2_of_unnamed {w : Word} (h : group2Field w ∉ namedGroup2) :
    decodeGroup2 w = .oprGroup2 (group2Field w) := by
  have hne {v : Word} (hv : group2Field v ∈ namedGroup2) : w ≠ v := fun e => h (e ▸ hv)
  rw [decodeGroup2]
  iterate 10 rw [if_neg (hne (by decide))]

theorem decode_encode_oprGroup1 {g : Group1} (h : g ∉ namedGroup1) :
    decode (encode (.oprGroup1 g)) = .oprGroup1 g := by
  rw [← group1Field_encodeGroup1 g] at h
  rw [decode_of_opr (OpcodeBits.oprGroup1 g), encode, decodeOpr_encodeGroup1, decodeGroup1_of_unnamed h,
    group1Field_encodeGroup1]

theorem decode_encode_oprGroup2 {g : Group2} (h : g ∉ namedGroup2) :
    decode (encode (.oprGroup2 g)) = .oprGroup2 g := by
  rw [← group2Field_encodeGroup2 g] at h
  rw [decode_of_opr (OpcodeBits.oprGroup2 g), encode, decodeOpr_encodeGroup2, decodeGroup2_of_unnamed h,
    group2Field_encodeGroup2]

theorem decode_encode_oprNeither (bits : BitVec 7) : decode (encode (.oprNeither bits)) = .oprNeither bits := by
  obtain ⟨hselector, hlowest⟩ :
      (encode (.oprNeither bits)).getLsbD 8 = true ∧ (encode (.oprNeither bits)).getLsbD 0 = true := by
    simp only [encode, BitVec.getLsbD_cast, BitVec.getLsbD_append]
    simp
  have hbits : (encode (.oprNeither bits)).extractLsb' 1 7 = bits :=
    (BitVec.extractLsb'_append_eq_of_le (by decide)).trans BitVec.extractLsb'_append_eq_right
  rw [decode_of_opr (OpcodeBits.oprNeither bits), decodeOpr, if_pos hselector, if_pos hlowest, hbits]

/-! ### The round trip, and sample words -/

/-- Settles O1: format by format, the decoder reads back the fields that the encoder wrote; well-formedness keeps the
generic rows away from the words that a row of their own names. -/
theorem decodeEncodeRoundTrip : Obligations.DecodeEncodeRoundTrip := by
  intro i hwf
  cases i
  case and | tad | isz | dca | jms | jmp =>
    simp only [encode, decode, opcodeField_encodeMemRef, getLsbD_eight_encodeMemRef, getLsbD_seven_encodeMemRef,
      offsetField_encodeMemRef]
    rfl
  case iotReader ops => exact decode_encode_iotReader ops
  case iotPunch skip clear send => exact decode_encode_iotPunch skip clear send
  case iotUnknown dev ops => exact decode_encode_iotUnknown ops (by simpa [Instr.wf] using hwf)
  case oprGroup1 g => exact decode_encode_oprGroup1 (by simpa [Instr.wf] using hwf)
  case oprGroup2 g => exact decode_encode_oprGroup2 (by simpa [Instr.wf] using hwf)
  case oprNeither bits => exact decode_encode_oprNeither bits
  all_goals rfl

/-- Settles O2, by evaluating the decoder on the twelve words. -/
theorem sampleWordsDecode : Obligations.SampleWordsDecode := by
  unfold Obligations.SampleWordsDecode
  decide

end Sys2Proof
end

section
/-! SUPPORT. The operate instructions as the bits of their words: a named word does what its group's sequencer does with
its bits (30_encoding R71), and the unassigned bits do nothing (R72). -/

namespace Sys2Proof.Machine

open Sys2Proof

/-! ### Group 1 (R182, R184) -/

section
variable {g : Group1}

/-- The sequencer runs a named word's own micro-operation, and every other stage passes the state on. -/
theorem exec_eq_exec_group1Bits {ins : Instr} (hins : ins ∈ Sys2Proof.Rules.group1Instrs g) (s : State) :
    exec ins s = exec (.oprGroup1 (group1Bits ins)) s := by
  simp only [Sys2Proof.Rules.group1Instrs, List.mem_cons, List.not_mem_nil, or_false] at hins
  cases ins
  case iac | cml | cma => exact congrArg s.conclude (bind_pure _).symm
  case oprGroup1 | nop | ral | rtl | rar | rtr | cll | cla => rfl
  all_goals simp at hins

theorem microRotate_of_no_rotate (hrar : g.rar = false) (hral : g.ral = false) (s : State) :
    microRotate g s = .ok s := by
  simp only [microRotate, hrar, hral]

/-- Without a rotate the mode bit is free (R182). -/
theorem group1Sequence_two (hrar : g.rar = false) (hral : g.ral = false) (two : Bool) (s : State) :
    group1Sequence { g with two } s = group1Sequence g s := by
  have hset : ∀ t, microRotate { g with two } t = .ok t := microRotate_of_no_rotate hrar hral
  simp only [group1Sequence, hset, microRotate_of_no_rotate hrar hral]

end

/-! ### Group 2 (R204, R206) -/

section
variable {g : Group2} {s : State}

@[simp] theorem condition_true (test : Except Item Bool) (idle : Bool) : condition true test idle = test := rfl

@[simp] theorem condition_false (test : Except Item Bool) (idle : Bool) : condition false test idle = pure idle := rfl

/-- A Group-2 word that neither clears nor halts is its skip test. -/
theorem exec_oprGroup2_of_skipTest {test : Except Item Bool} (hcla : g.cla = false) (hhlt : g.hlt = false)
    (htest : s.skipTest g = test) : exec (.oprGroup2 g) s = s.conclude (skipOn test s) := by
  simp [exec, execOprGroup2, group2Sequence, skipOn, clearIf, hcla, hhlt, htest]

/-- The sequencer's skip test is a named test word's own, since an idle condition changes neither family's result. -/
theorem exec_eq_exec_group2Bits {ins : Instr} (hins : ins ∈ Sys2Proof.Rules.group2Instrs g) (s : State) :
    exec ins s = exec (.oprGroup2 (group2Bits ins)) s := by
  simp only [Sys2Proof.Rules.group2Instrs, List.mem_cons, List.not_mem_nil, or_false] at hins
  cases ins
  case oprGroup2 | hlt | claGroup2 | oprGroup2NoBits => rfl
  case skp => exact (exec_oprGroup2_of_skipTest (test := .ok true) rfl rfl rfl).symm
  case snl | szl | sza | sna | sma | spa =>
    refine (exec_oprGroup2_of_skipTest rfl rfl ?_).symm
    simp [group2Bits, State.skipTest, State.orFamilySkip, State.andFamilySkip, -bind_pure_comp]
  all_goals simp at hins

end

/-! ### The named words and the unassigned bits -/

/-- Settles O33: the bits that stand for each named instruction are the ones listed. -/
theorem namedWordsAreTheirBits : Obligations.NamedWordsAreTheirBits := by
  intro s
  have group1 {ins : Instr} (hins : ins ∈ Sys2Proof.Rules.group1Instrs {}) := exec_eq_exec_group1Bits hins s
  have group2 {ins : Instr} (hins : ins ∈ Sys2Proof.Rules.group2Instrs {}) := exec_eq_exec_group2Bits hins s
  constructor
  · refine ⟨group1 ?_, group1 ?_, group1 ?_, group1 ?_, group1 ?_, group1 ?_, group1 ?_, group1 ?_, group1 ?_,
      group1 ?_⟩ <;> decide
  · refine ⟨group2 ?_, group2 ?_, group2 ?_, group2 ?_, group2 ?_, group2 ?_, group2 ?_, group2 ?_, group2 ?_,
      group2 ?_⟩ <;> decide

/-- Settles O24: without a rotate the Group-1 sequencer is the same for every mode bit, and the Group-2 sequencer never
reads the unassigned bit. -/
theorem unassignedBitsDoNothing : Obligations.UnassignedBitsDoNothing := by
  refine ⟨fun s g hrar hral => congrArg s.conclude ?_, fun s g => rfl⟩
  exact (group1Sequence_two hrar hral true s).trans (group1Sequence_two hrar hral false s).symm

end Sys2Proof.Machine
end

section
/-! SUPPORT. The instruction cycle (40_cycle R101 to R112): when a step can be taken and what it answers, how it ends,
that none of it reads TRACE, and how the run command and its loop end. -/

namespace Sys2Proof.Machine

open Sys2Proof

/-! ### The end of a stepped run, field by field (R108, R109) -/

section
variable (s : State)

@[simp] theorem endStepping_ac : s.endStepping.ac = s.ac := by rw [endStepping_same]
@[simp] theorem endStepping_link : s.endStepping.link = s.link := by rw [endStepping_same]
@[simp] theorem endStepping_pc : s.endStepping.pc = s.pc := by rw [endStepping_same]
@[simp] theorem endStepping_fault : s.endStepping.fault = s.fault := by rw [endStepping_same]
@[simp] theorem endStepping_stepping : s.endStepping.stepping = s.stepping := by rw [endStepping_same]

@[simp] theorem endStepping_running : s.endStepping.running = (s.running && !s.stepping) := by
  rcases endStepping_cases s with ⟨hs, h⟩ | ⟨hs, h⟩ <;> simp [h, hs]

end

/-! ### The state after the fetch (R102 to R104) -/

/-- The state in which the handler of the word `w`, fetched at `a`, begins: IR holds `w` and PC has been advanced. -/
def State.fetched (s : State) (a w : Word) : State := { s with ir := w, pc := some (a + 1#12) }

section
variable (s : State) (a w : Word)

@[simp] theorem State.fetched_ir : (s.fetched a w).ir = w := rfl
@[simp] theorem State.fetched_running : (s.fetched a w).running = s.running := rfl
@[simp] theorem State.fetched_fault : (s.fetched a w).fault = s.fault := rfl
@[simp] theorem State.fetched_trace : (s.fetched a w).trace = s.trace := rfl
@[simp] theorem State.fetched_stepping : (s.fetched a w).stepping = s.stepping := rfl

end

/-! ### What `step` answers, one equation for each way it can go (R101, R105, R114) -/

section
variable {s t : State} {a : Word}

theorem step_of_fault (h : s.fault ≠ none) : step s = .fault .frozen := if_pos (Option.isSome_iff_ne_none.2 h)

theorem step_of_not_running (hfault : s.fault = none) (hrun : s.running = false) : step s = .fault .stopped := by
  simp [step, hfault, hrun]

theorem step_of_fetch_error (hrun : s.running = true) (hfault : s.fault = none) (ht : s.fetch = .error t) :
    step s = .next t.endStepping := by
  simp [step, hrun, hfault, ht]

theorem step_of_fetch_ok (hrun : s.running = true) (hfault : s.fault = none) (ht : s.fetch = .ok (a, t)) :
    step s = outcomeMap (fun u => (u.emitExecuted a).endStepping) (exec (decode t.ir) t) := by
  simp only [step, hrun, hfault, ht, Option.isSome_none, Bool.false_eq_true, Bool.true_eq_false, if_false]
  cases exec (decode t.ir) t <;> rfl

theorem step_of_word {w : Word} (hrun : s.running = true) (hfault : s.fault = none) (hpc : s.pc = some a)
    (hw : s.mem.read a = some w) :
    step s = outcomeMap (fun u => (u.emitExecuted a).endStepping) (exec (decode w) (s.fetched a w)) := by
  have hfetch : s.fetch = .ok (a, s.fetched a w) := fetch_ok.2 ⟨w, hpc, hw, rfl⟩
  rw [step_of_fetch_ok hrun hfault hfetch, State.fetched_ir]

end

/-- Settles O37: the fetch succeeds, with the state that the handler begins in. -/
theorem stepRunsTheDecodedInstruction : Obligations.StepRunsTheDecodedInstruction := by
  rintro s a w _ hrun hfault hpc hw rfl
  exact step_of_word hrun hfault hpc hw

/-- Settles O38: a running machine without a record answers the fatal stop of its fetch, or what its instruction answers,
and every instruction answers a next state. -/
theorem stepsExactlyWhenRunning : Obligations.StepsExactlyWhenRunning := by
  refine fun s => ⟨fun ⟨t, h⟩ => ?_, fun ⟨hrun, hfault⟩ => ?_⟩
  · obtain ⟨hfault, hrun, -⟩ := step_next h
    exact ⟨hrun, hfault⟩
  · cases hfetch : s.fetch with
    | error t => exact ⟨_, step_of_fetch_error hrun hfault hfetch⟩
    | ok p =>
      obtain ⟨u, hu⟩ := everyInstructionAnswersANextState (decode p.2.ir) p.2
      have hstep := step_of_fetch_ok hrun hfault hfetch
      rw [hu] at hstep
      exact ⟨_, hstep⟩

/-- Settles O41: an effect leaves FAULT alone, so only the fatal stop can set it. -/
theorem fatalErrorUndoesTheHandler : Obligations.FatalErrorUndoesTheHandler := by
  intro i s t hfault h hrecord
  exact (exec_effect h).resolve_right fun eff => hrecord (eff.fault.trans hfault)

/-! ### How a step ends (R107, R108, R110) -/

/-- The step from `s` to `v` completes: it fetches the word `w` at `a`, whose handler leaves `u` and raises no error. -/
structure CompletedStep (s : State) (a w : Word) (u v : State) : Prop where
  pc : s.pc = some a
  word : s.mem.read a = some w
  handler : exec (decode w) (s.fetched a w) = .next u
  effect : Effect (s.fetched a w) u
  fault : u.fault = none
  result : v = (u.emit (.instructionExecuted a w u.ac u.link u.pc)).endStepping

/-- A step ends in the fatal stop of a state that has the TRACE and the `stepping` argument it began with, or it
completes. -/
theorem step_fatal_or_completes {s v : State} (h : step s = .next v) :
    (∃ (t : State) (e : ErrorRecord), t.trace = s.trace ∧ t.stepping = s.stepping ∧ v = (t.fatal e).endStepping) ∨
      ∃ a w u, CompletedStep s a w u v := by
  obtain ⟨hfault, -, ⟨t, ht, rfl⟩ | ⟨a, t, u, ht, hu, rfl⟩⟩ := step_next h
  · rcases fetch_error ht with ⟨-, rfl⟩ | ⟨_, -, -, rfl⟩ <;> exact .inl ⟨s, _, rfl, rfl, rfl⟩
  · obtain ⟨w, hpc, hw, rfl⟩ := fetch_ok.1 ht
    rcases exec_effect hu with ⟨e, rfl⟩ | eff
    · exact .inl ⟨s.fetched a w, e, rfl, rfl, rfl⟩
    · have hu' : u.fault = none := eff.fault.trans hfault
      have hemit : u.emitExecuted a = u.emit (.instructionExecuted a w u.ac u.link u.pc) := by
        rw [((emitExecuted_cases u a).resolve_right fun k => k.1 hu').2, eff.ir]
      exact .inr ⟨a, w, u, hpc, hw, hu, eff, hu', by rw [hemit]⟩

section
variable {s u v : State} {a w : Word}

theorem CompletedStep.result_fault (h : CompletedStep s a w u v) : v.fault = none := by
  simpa [h.result] using h.fault

theorem CompletedStep.result_trace (h : CompletedStep s a w u v) :
    v.trace = u.trace ++ [.instructionExecuted a w u.ac u.link u.pc] := by
  simp [h.result]

theorem CompletedStep.result_stepping (h : CompletedStep s a w u v) : v.stepping = s.stepping := by
  simpa [h.result] using h.effect.stepping

theorem CompletedStep.result_running (h : CompletedStep s a w u v) : v.running = (u.running && !s.stepping) := by
  have hstepping : u.stepping = s.stepping := h.effect.stepping
  simp [h.result, hstepping]

end

/-- Settles O43: a fatal stop leaves TRACE alone, and a step that completes appends its event to what its handler
appended. -/
theorem completedStepsAreTraced : Obligations.CompletedStepsAreTraced := by
  intro s v h
  rcases step_fatal_or_completes h with ⟨t, e, htrace, -, rfl⟩ | ⟨a, w, u, hc⟩
  · exact ⟨fun hf => by simp at hf, fun _ => by simpa using htrace⟩
  · refine ⟨fun _ => ?_, fun hrecord => absurd hc.result_fault hrecord⟩
    obtain ⟨events, hevents⟩ := hc.effect.trace_prefix
    refine ⟨a, w, events, hc.pc, hc.word, ?_⟩
    simp [hc.result, ← hevents]

/-- After an InstructionExecuted event TRACE tells a halt exactly where a Halt event stood last before it (R203). -/
theorem endsInHalt_reverse_append_executed (l : List TraceEvent) (a w : Word) (ac : Option Word) (link : Option Bool)
    (pc : Option Word) :
    endsInHalt (l ++ [TraceEvent.instructionExecuted a w ac link pc]).reverse = l.getLast?.any TraceEvent.isHalt := by
  rcases l.eq_nil_or_concat with rfl | ⟨l, e, rfl⟩
  · rfl
  · cases e <;> simp [endsInHalt, TraceEvent.isHalt]

/-- A handler that stops the machine without an error traced a Halt event last (R203). -/
theorem CompletedStep.endsInHalt_of_stops {s u v : State} {a w : Word} (h : CompletedStep s a w u v)
    (hrun : s.running = true) (hu : u.running = false) : endsInHalt v.trace.reverse = true := by
  rcases h.effect.running with e | ⟨-, pc, e⟩
  · simp [hrun, hu] at e
  · rw [h.result_trace, endsInHalt_reverse_append_executed, e, List.getLast?_concat]
    rfl

/-- Settles O44: nothing in a step writes the `stepping` argument, and without it RUN is false only by a fatal stop or by
the handler. -/
theorem steppedRunEndsAfterOneStep : Obligations.SteppedRunEndsAfterOneStep := by
  intro s v h
  obtain ⟨-, hrun, -⟩ := step_next h
  have noStep (hv : v.running = false) (u : State) : step v ≠ .next u := fun k => by
    simp [((stepsExactlyWhenRunning v).1 ⟨u, k⟩).1] at hv
  rcases step_fatal_or_completes h with ⟨t, e, -, hstepping, rfl⟩ | ⟨a, w, u, hc⟩
  · have hv : (t.fatal e).endStepping.running = false := by simp
    exact ⟨by simpa using hstepping, fun _ => ⟨hv, noStep hv⟩, fun _ _ => .inl (by simp)⟩
  · refine ⟨hc.result_stepping, fun hs => ?_, fun hs hv => .inr ?_⟩
    · have hv : v.running = false := by simp [hc.result_running, hs]
      exact ⟨hv, noStep hv⟩
    · have hu : u.running = false := by simpa [hc.result_running, hs] using hv
      exact hc.endsInHalt_of_stops hrun hu

end Sys2Proof.Machine
end

section
/-! SUPPORT. Nothing in a step reads TRACE (40_cycle R111). -/

namespace Sys2Proof.Machine

open Sys2Proof

/-! ### Operations that do not read TRACE

An operation is passive when the state without TRACE decides its result up to TRACE. Each of the shapes that handlers are
made of (a read, a pure update, a choice, a sequence) keeps this, so the handlers have it by their own shape. -/

/-- `op` does not read TRACE. -/
def Passive (op : State → Except Item State) : Prop :=
  ∀ s : State, (op s).map State.untraced = (op s.untraced).map State.untraced

section
variable {op next : State → Except Item State} {update : State → State}

theorem Passive.pure (h : ∀ s : State, (update s).untraced = (update s.untraced).untraced) :
    Passive fun s => .ok (update s) := fun s => congrArg Except.ok (h s)

theorem Passive.same : Passive fun s => .ok s := .pure fun _ => rfl

/-- A read whose value TRACE does not decide, and what follows for each value. -/
theorem Passive.read {α : Type} {value : State → Except Item α} {rest : α → State → Except Item State}
    (hvalue : ∀ s : State, value s = value s.untraced) (hrest : ∀ x, Passive (rest x)) :
    Passive fun s => value s >>= fun x => rest x s := by
  intro s
  simp only [← hvalue s]
  cases value s with
  | error item => rfl
  | ok x => exact hrest x s

theorem Passive.ite {c : Prop} [Decidable c] (hop : Passive op) (hnext : Passive next) :
    Passive fun s => if c then op s else next s := by
  by_cases hc : c
  · simpa only [hc, if_true] using hop
  · simpa only [hc, if_false] using hnext

/-- A passive operation meets the same item without a value, or answers two states that agree but for TRACE. -/
theorem Passive.cases (hop : Passive op) (s : State) :
    (∃ item, op s = .error item ∧ op s.untraced = .error item) ∨
      ∃ t t', op s = .ok t ∧ op s.untraced = .ok t' ∧ t.untraced = t'.untraced := by
  have h := hop s
  cases hs : op s <;> cases hu : op s.untraced <;> rw [hs, hu] at h
  · exact .inl ⟨_, rfl, congrArg Except.error (Except.error.inj h).symm⟩
  · cases h
  · cases h
  · exact .inr ⟨_, _, rfl, rfl, Except.ok.inj h⟩

theorem Passive.bind (hop : Passive op) (hnext : Passive next) : Passive fun s => op s >>= next := by
  intro s
  show (op s >>= next).map State.untraced = (op s.untraced >>= next).map State.untraced
  rcases hop.cases s with ⟨item, hs, hu⟩ | ⟨t, t', hs, hu, htt'⟩
  · simp only [hs, hu, error_bind]
  · simp only [hs, hu, ok_bind]
    exact (hnext t).trans (htt' ▸ (hnext t').symm)

end

/-! ### The shared operations -/

theorem passive_skip : Passive State.skip :=
  .read (value := State.readPc) (fun _ => rfl) fun _ => .pure fun _ => rfl

theorem passive_skipIf (c : Bool) : Passive (skipIf c) := .ite passive_skip .same

theorem passive_skipOn {test : State → Except Item Bool} (h : ∀ s : State, test s = test s.untraced) :
    Passive fun s => skipOn (test s) s :=
  .read h passive_skipIf

/-! ### Group 1 (R172 to R184) -/

theorem passive_microCla : Passive microCla := .pure fun _ => rfl

theorem passive_microCll : Passive microCll := .pure fun _ => rfl

theorem passive_microCma : Passive microCma := .read (fun _ => rfl) fun _ => .pure fun _ => rfl

theorem passive_microCml : Passive microCml := .read (fun _ => rfl) fun _ => .pure fun _ => rfl

theorem passive_microIac : Passive microIac := .read (fun _ => rfl) fun _ => .pure fun _ => rfl

theorem passive_microRar : Passive microRar :=
  .read (fun _ => rfl) fun _ => .read (fun _ => rfl) fun _ => .pure fun _ => rfl

theorem passive_microRal : Passive microRal :=
  .read (fun _ => rfl) fun _ => .read (fun _ => rfl) fun _ => .pure fun _ => rfl

theorem passive_microDraw : Passive microDraw :=
  .read (fun _ => rfl) fun _ => .read (fun _ => rfl) fun _ => .pure fun _ => rfl

section
variable {op : State → Except Item State}

theorem Passive.microIf (h : Passive op) (enabled : Bool) : Passive (microIf enabled op) := .ite h .same

theorem Passive.microRepeat (h : Passive op) (two : Bool) : Passive (microRepeat two op) := .ite (h.bind h) h

end

theorem passive_microRotate (g : Group1) : Passive (microRotate g) := by
  unfold microRotate
  cases g.rar <;> cases g.ral
  · exact .same
  · exact passive_microRal.microRepeat _
  · exact passive_microRar.microRepeat _
  · exact passive_microDraw

theorem passive_group1Sequence (g : Group1) : Passive (group1Sequence g) := by
  have hend := (passive_microIac.microIf g.iac).bind (passive_microRotate g)
  have hcomplement := (passive_microCma.microIf g.cma).bind ((passive_microCml.microIf g.cml).bind hend)
  exact (passive_microCla.microIf g.cla).bind ((passive_microCll.microIf g.cll).bind hcomplement)

/-! ### Group 2 (R190 to R206) -/

theorem passive_microHlt : Passive microHlt := .read (fun _ => rfl) fun _ => .pure fun _ => rfl

theorem passive_group2Sequence (g : Group2) : Passive (group2Sequence g) := by
  have hclear : ∀ s : State, (clearIf g.cla s).untraced = (clearIf g.cla s.untraced).untraced := fun s => by
    cases g.cla <;> rfl
  have hfinish : Passive fun t => if g.hlt then microHlt (clearIf g.cla t) else .ok (clearIf g.cla t) :=
    .ite ((Passive.pure hclear).bind passive_microHlt) (.pure hclear)
  exact .read (value := fun s => s.skipTest g) (fun _ => rfl) fun c => (passive_skipIf c).bind hfinish

/-! ### The punch (R152 to R155) -/

theorem passive_punchSkip (skip : Bool) : Passive (punchSkip skip) := by
  have hclears : Passive fun t => .ok (if Config.punchSkipClearsFlag then t.setPf false else t) :=
    .pure fun t => by cases Config.punchSkipClearsFlag <;> rfl
  exact .ite (.read (fun _ => rfl) fun _ => .ite (passive_skip.bind hclears) .same) .same

theorem passive_punchSend (send : Bool) : Passive (punchSend send) := by
  refine .ite (.read (fun _ => rfl) fun ac => .pure fun s => ?_) .same
  by_cases h : ac = 0#12 <;> simp only [h, if_true, if_false] <;> rfl

theorem passive_punch (skip clear send : Bool) :
    Passive fun s => punchSkip skip s >>= fun t => punchSend send (punchClear clear t) := by
  have hclear : Passive fun s => .ok (punchClear clear s) := .pure fun s => by cases clear <;> rfl
  exact (passive_punchSkip skip).bind (hclear.bind (passive_punchSend send))

/-! ### Every instruction -/

/-- `handler` does not read TRACE, the record of an error included. -/
def PassiveHandler (handler : State → Host.Outcome State Fault Refusal) : Prop :=
  ∀ s : State, outcomeMap State.untraced (handler s) = outcomeMap State.untraced (handler s.untraced)

/-- The record of an UnwrittenRead names the item and the instruction address, which TRACE does not decide. -/
theorem Passive.conclude {op : State → Except Item State} (h : Passive op) :
    PassiveHandler fun s => s.conclude (op s) := by
  intro s
  show outcomeMap State.untraced (s.conclude (op s)) = outcomeMap State.untraced (s.untraced.conclude (op s.untraced))
  rcases h.cases s with ⟨item, hs, hu⟩ | ⟨t, t', hs, hu, htt'⟩ <;> rw [hs, hu]
  · rfl
  · exact congrArg Host.Outcome.next htt'

theorem passiveHandler_exec (i : Instr) : PassiveHandler (exec i) := by
  cases i
  case iotReader | iotUnknown | oprNeither | nop | claGroup2 | oprGroup2NoBits => exact fun _ => rfl
  case and | tad =>
    exact Passive.conclude
      (.read (fun _ => rfl) fun _ => .read (fun _ => rfl) fun _ => .read (fun _ => rfl) fun _ => .pure fun _ => rfl)
  case isz =>
    refine Passive.conclude (.read (fun _ => rfl) fun ea => .read (fun _ => rfl) fun operand => ?_)
    have hwrite : Passive fun t => .ok (t.memWrite ea (operand + 1#12)) := .pure fun _ => rfl
    exact .ite (hwrite.bind passive_skip) hwrite
  case dca | jms =>
    exact Passive.conclude (.read (fun _ => rfl) fun _ => .read (fun _ => rfl) fun _ => .pure fun _ => rfl)
  case jmp => exact Passive.conclude (.read (fun _ => rfl) fun _ => .pure fun _ => rfl)
  case iotPunch skip clear send => exact (passive_punch skip clear send).conclude
  case oprGroup1 g => exact (passive_group1Sequence g).conclude
  case oprGroup2 g => exact (passive_group2Sequence g).conclude
  case iac => exact passive_microIac.conclude
  case ral => exact passive_microRal.conclude
  case rtl => exact (passive_microRal.microRepeat true).conclude
  case rar => exact passive_microRar.conclude
  case rtr => exact (passive_microRar.microRepeat true).conclude
  case cml => exact passive_microCml.conclude
  case cma => exact passive_microCma.conclude
  case cll => exact passive_microCll.conclude
  case cla => exact passive_microCla.conclude
  case hlt => exact passive_microHlt.conclude
  case skp => exact passive_skip.conclude
  case snl | szl | sza | sna | sma | spa => exact Passive.conclude (passive_skipOn fun _ => rfl)

/-! ### The step -/

theorem endStepping_untraced (s : State) : s.endStepping.untraced = s.untraced.endStepping := by
  unfold State.endStepping
  cases hs : s.stepping <;> simp only [hs, State.untraced_stepping] <;> rfl

theorem emitExecuted_untraced (s : State) (a : Word) : (s.emitExecuted a).untraced = s.untraced := by
  rcases emitExecuted_cases s a with ⟨-, h⟩ | ⟨-, h⟩ <;> rw [h]
  rfl

/-- What follows the handler reads of the state only what is left without TRACE. -/
theorem outcomeMap_untraced_finish (a : Word) (o : Host.Outcome State Fault Refusal) :
    outcomeMap State.untraced (outcomeMap (fun u => (u.emitExecuted a).endStepping) o) =
      outcomeMap State.endStepping (outcomeMap State.untraced o) := by
  cases o with
  | next u => simp only [outcomeMap, endStepping_untraced, emitExecuted_untraced]
  | fault | refused => rfl

theorem fetch_error_untraced {s t : State} (h : s.fetch = .error t) : s.untraced.fetch = .error t.untraced := by
  rcases fetch_error h with ⟨hpc, rfl⟩ | ⟨a, hpc, hword, rfl⟩
  · simp only [State.fetch, State.untraced_pc, hpc]
    rfl
  · simp only [State.fetch, State.untraced_pc, State.untraced_mem, hpc, hword]
    rfl

/-- Without TRACE a step stops for the same reason, its fetch fails in the same way, or it runs the same word. -/
theorem passiveHandler_step : PassiveHandler step := by
  intro s
  by_cases hfault : s.fault = none
  · cases hrun : s.running with
    | false => rw [step_of_not_running hfault hrun, step_of_not_running (s := s.untraced) hfault hrun]
    | true =>
      cases hfetch : s.fetch with
      | error t =>
        rw [step_of_fetch_error hrun hfault hfetch,
          step_of_fetch_error (s := s.untraced) hrun hfault (fetch_error_untraced hfetch)]
        simp only [outcomeMap, endStepping_untraced]
        rfl
      | ok p =>
        obtain ⟨w, hpc, hw, -⟩ := fetch_ok.1 hfetch
        rw [step_of_word hrun hfault hpc hw, step_of_word (s := s.untraced) hrun hfault hpc hw,
          outcomeMap_untraced_finish, outcomeMap_untraced_finish, passiveHandler_exec _ (s.fetched _ w)]
        rfl
  · rw [step_of_fault hfault, step_of_fault (s := s.untraced) hfault]

/-- Settles O47: a step is decided, up to TRACE, by the machine without its TRACE. -/
theorem traceIsPassive : Obligations.TraceIsPassive := fun s s' h => by
  rw [passiveHandler_step s, h, ← passiveHandler_step s']

end Sys2Proof.Machine
end

section
/-! SUPPORT. The run command and its loop (40_cycle R100, R109), and how a run ends (R112). -/

namespace Sys2Proof.Machine

open Sys2Proof

/-! ### The run command (R100, R281) -/

section
variable {s : State} {stepping : Bool}

theorem hostRun_of_fault (h : s.fault ≠ none) (start : Option Nat) :
    hostRun start stepping s = .refused .runOnFaultedMachine :=
  if_pos (Option.isSome_iff_ne_none.2 h)

theorem hostRun_none (h : s.fault = none) : hostRun none stepping s = .next { s with running := true, stepping } := by
  simp [hostRun, h]

theorem hostRun_of_lt (h : s.fault = none) {start : Nat} (hlt : start < 4096) :
    hostRun (some start) stepping s =
      .next { s with running := true, stepping, pc := some (BitVec.ofNat 12 start) } := by
  simp [hostRun, h, hlt]

theorem hostRun_of_le (h : s.fault = none) {start : Nat} (hle : 4096 ≤ start) :
    hostRun (some start) stepping s = .refused .startOutOfRange := by
  simp [hostRun, h, hle.not_gt]

end

/-- Settles O53: one equation for the record, and one for each kind of start on a machine without a record. -/
theorem runCommand : Obligations.RunCommand := fun _ _ =>
  ⟨hostRun_of_fault, fun h => ⟨hostRun_none h, fun _ => ⟨hostRun_of_lt h, hostRun_of_le h⟩⟩⟩

/-! ### The loop takes steps until none can be taken (R101, R109) -/

section
variable {s t u : State} {fuel n : Nat}

theorem canStep_iff : s.canStep = true ↔ s.running = true ∧ s.fault = none := by simp [State.canStep]

theorem not_running_of_not_canStep (hfault : s.fault = none) (h : s.canStep = false) : s.running = false := by
  simpa [State.canStep, hfault] using h

theorem runLoop_of_not_canStep (h : s.canStep = false) : runLoop fuel s = some s := by
  cases fuel with
  | zero => simp [runLoop, h]
  | succ fuel =>
    by_cases hfault : s.fault = none
    · simp [runLoop, step_of_not_running hfault (not_running_of_not_canStep hfault h)]
    · simp [runLoop, step_of_fault hfault]

theorem runLoop_of_step (h : step s = .next t) : runLoop (fuel + 1) s = runLoop fuel t := by simp [runLoop, h]

theorem afterSteps_of_step (h : step s = .next t) :
    Sys2Proof.Rules.afterSteps (n + 1) s = Sys2Proof.Rules.afterSteps n t := by
  simp [Sys2Proof.Rules.afterSteps, h]

/-- What every step keeps, any number of steps keeps. -/
theorem afterSteps_preserves {P : State → Prop} (hstep : ∀ s t, P s → step s = .next t → P t)
    (h : Sys2Proof.Rules.afterSteps n s = some u) (hs : P s) : P u := by
  induction n generalizing s with
  | zero => cases h; exact hs
  | succ n ih =>
    cases hv : step s with
    | next t => exact ih (afterSteps_of_step hv ▸ h) (hstep s t hs hv)
    | fault | refused => simp [Sys2Proof.Rules.afterSteps, hv] at h

theorem afterSteps_stepping (h : Sys2Proof.Rules.afterSteps n s = some u) : u.stepping = s.stepping := by
  refine afterSteps_preserves (P := fun v => v.stepping = s.stepping) (fun v w hv hw => ?_) h rfl
  exact (steppedRunEndsAfterOneStep v w hw).1.trans hv

/-- The loop of a machine that can step returns the state after its last step, from which there is none. -/
theorem runLoop_last_step (hs : s.canStep = true) (h : runLoop fuel s = some t) :
    ∃ n u, Sys2Proof.Rules.afterSteps n s = some u ∧ step u = .next t ∧ t.canStep = false := by
  induction fuel generalizing s with
  | zero => simp [runLoop, hs] at h
  | succ fuel ih =>
    obtain ⟨v, hv⟩ := (stepsExactlyWhenRunning s).2 (canStep_iff.1 hs)
    rw [runLoop_of_step hv] at h
    cases hcan : v.canStep with
    | true =>
      obtain ⟨n, u, hu, hlast, hend⟩ := ih hcan h
      exact ⟨n + 1, u, (afterSteps_of_step hv).trans hu, hlast, hend⟩
    | false =>
      rw [runLoop_of_not_canStep hcan] at h
      cases h
      exact ⟨0, s, rfl, hv, hcan⟩

end

/-! ### The HLT bit of a word and of its instruction (R65, R203) -/

/-- A word with the HLT bit is an operate word: its top four bits are set. -/
theorem opcodeField_of_hasHltBit {w : Word} (h : Sys2Proof.Rules.hasHltBit w = true) : opcodeField w = 0o7#3 := by
  have htop : w.extractLsb' 8 4 = 0b1111#4 := by
    simp only [Sys2Proof.Rules.hasHltBit, Bool.and_eq_true, beq_iff_eq] at h
    exact h.1.1
  have hsplit : opcodeField w = (w.extractLsb' 8 4).extractLsb' 1 3 := by
    ext k hk
    have hk' : 1 + k < 4 := by omega
    simp [opcodeField, hk', ← Nat.add_assoc]
  rw [hsplit, htop]
  rfl

/-- The HLT bit of an instruction's word is the instruction's own. -/
theorem hasHltBit_encode_iff (i : Instr) : Sys2Proof.Rules.hasHltBit (encode i) = true ↔ HasHlt i := by
  have notOperate {op : BitVec 3} (hop : op ≠ 0o7#3) (hi : opcodeField (encode i) = op) (hno : ¬ HasHlt i) :
      Sys2Proof.Rules.hasHltBit (encode i) = true ↔ HasHlt i :=
    iff_of_false (fun h => hop (hi.symm.trans (opcodeField_of_hasHltBit h))) hno
  cases i
  case and | tad | isz | dca | jms | jmp =>
    exact notOperate (by decide) (Sys2Proof.Laws.opcodeField_encodeMemRef _ _ _ _) (by simp [HasHlt])
  case iotReader | iotPunch | iotUnknown =>
    exact notOperate (by decide) (Sys2Proof.Laws.opcodeField_encodeIot _ _) (by simp [HasHlt])
  case oprGroup1 g =>
    have hbit : Sys2Proof.Rules.hasHltBit (encode (.oprGroup1 g)) = false := by
      rcases g with ⟨_ | _, _ | _, _ | _, _ | _, _ | _, _ | _, _ | _, _ | _⟩ <;> rfl
    simp [hbit, HasHlt]
  case oprGroup2 g =>
    have hbit : Sys2Proof.Rules.hasHltBit (encode (.oprGroup2 g)) = g.hlt := by
      rcases g with ⟨_ | _, _ | _, _ | _, _ | _, _ | _, _ | _, _ | _⟩ <;> rfl
    simp [hbit, HasHlt]
  case oprNeither bits =>
    have hbit : ∀ bits, Sys2Proof.Rules.hasHltBit (encode (.oprNeither bits)) = false := by decide
    simp [hbit, HasHlt]
  case hlt => exact iff_of_true rfl (.inl rfl)
  all_goals exact iff_of_false (by decide) (by simp [HasHlt])

theorem hasHlt_decode_iff (w : Word) : HasHlt (decode w) ↔ Sys2Proof.Rules.hasHltBit w = true := by
  rw [← hasHltBit_encode_iff, encode_decode]

/-! ### How a run ends (R112) -/

section
variable {s t : State}

theorem runEnd_of_fault (h : t.fault ≠ none) : t.runEnd = some .faulted :=
  if_pos (Option.isSome_iff_ne_none.2 h)

theorem runEnd_of_no_fault (hfault : t.fault = none) (hrun : t.running = false) :
    t.runEnd = if endsInHalt t.trace.reverse then some .halted else if t.stepping then some .stepped else none := by
  simp [State.runEnd, hfault, hrun]

theorem step_not_running_of_fault (h : step s = .next t) (hfault : t.fault ≠ none) : t.running = false := by
  rcases step_fatal_or_completes h with ⟨u, e, -, -, rfl⟩ | ⟨a, w, u, hc⟩
  · simp
  · exact absurd hc.result_fault hfault

/-- A step that completes ends in a halt exactly where its word had the HLT bit. -/
theorem CompletedStep.endsInHalt_eq {a w : Word} {u : State} (hc : CompletedStep s a w u t) (hinv : s.Inv) :
    endsInHalt t.trace.reverse = Sys2Proof.Rules.hasHltBit w := by
  obtain ⟨-, -, -, -, hlast⟩ := hinv
  rw [hc.result_trace, endsInHalt_reverse_append_executed, Bool.eq_iff_iff, ← hasHlt_decode_iff]
  rcases exec_trace hc.handler hc.fault with ⟨hhlt, pc, e⟩ | ⟨hhlt, e | ⟨_, _, e⟩⟩
  · simp [hhlt, e, TraceEvent.isHalt]
  · simpa [hhlt, e, Option.any_eq_false] using hlast
  · simp [hhlt, e, TraceEvent.isHalt]

/-- A step after which none can be taken ends the run in one of the three ways, stepped only in a stepped run. -/
theorem runEnd_of_last_step (h : step s = .next t) (hend : t.canStep = false) :
    t.running = false ∧ ∃ e, t.runEnd = some e ∧ (e = .faulted ↔ t.fault ≠ none) ∧
      (e = .stepped → s.stepping = true) := by
  by_cases hfault : t.fault = none
  · have hrun := not_running_of_not_canStep hfault hend
    obtain ⟨hstepping, -, hhalt⟩ := steppedRunEndsAfterOneStep s t h
    rw [runEnd_of_no_fault hfault hrun, hstepping]
    by_cases hhalted : endsInHalt t.trace.reverse = true
    · exact ⟨hrun, .halted, if_pos hhalted, by simp [hfault], nofun⟩
    · have hstep : s.stepping = true := by
        by_contra hno
        exact (hhalt (by simpa using hno) hrun).elim (· hfault) hhalted
      exact ⟨hrun, .stepped, by simp [hhalted, hstep], by simp [hfault], fun _ => hstep⟩
  · exact ⟨step_not_running_of_fault h hfault, .faulted, runEnd_of_fault hfault, by simp [hfault], nofun⟩

end

/-- Settles O54: the loop's last step tells how the run ended, and its word's HLT bit tells a halt. -/
theorem everyRunEndsInOneOfThreeWays : Obligations.EveryRunEndsInOneOfThreeWays := by
  constructor
  · intro fuel s t hrun hfault h
    obtain ⟨n, u, hu, hlast, hend⟩ := runLoop_last_step (canStep_iff.2 ⟨hrun, hfault⟩) h
    rw [← afterSteps_stepping hu]
    exact runEnd_of_last_step hlast hend
  · intro fuel s t hinv hrun hfault h hok
    obtain ⟨n, u, hu, hlast, hend⟩ := runLoop_last_step (canStep_iff.2 ⟨hrun, hfault⟩) h
    have hstopped := not_running_of_not_canStep hok hend
    have huinv : u.Inv := afterSteps_preserves stepKeepsTheInvariant hu hinv
    rcases step_fatal_or_completes hlast with ⟨v, e, -, -, rfl⟩ | ⟨a, w, v, hc⟩
    · simp at hok
    · refine ⟨n, u, a, w, hu, hlast, hc.pc, hc.word, ?_⟩
      rw [runEnd_of_no_fault hok hstopped, hc.result_stepping, afterSteps_stepping hu, hc.endsInHalt_eq huinv]
      cases Sys2Proof.Rules.hasHltBit w <;> simp

end Sys2Proof.Machine
end

section
/-! SUPPORT. The resolver once its intermediate address is known, and where it fails (41_address_resolution R121 to R126,
60_exceptions R274). -/

namespace Sys2Proof.Machine

open Sys2Proof

section
variable {s : State} {z : Bool} {off : Offset}

/-! ### The intermediate address -/

theorem baseAddress_pageZero : s.baseAddress true off = .ok (off.setWidth 12) := baseAddress_ok.2 (.inl ⟨rfl, rfl⟩)

theorem baseAddress_currentPage {a : Word} (hpc : s.pc = some (a + 1#12)) :
    s.baseAddress false off = .ok (pageBase a ||| off.setWidth 12) :=
  baseAddress_ok.2 (.inr ⟨rfl, a, instrAddr_of_pc hpc, rfl⟩)

/-- The instruction address is found from PC, so it has no value where PC has none. -/
theorem baseAddress_currentPage_of_pc_none (hpc : s.pc = none) : s.baseAddress false off = .error .pc := by
  simp [State.baseAddress, State.instrAddr, hpc]

/-! ### The resolver from the intermediate address -/

theorem resolve_of_baseAddress_error {item : Item} (h : s.baseAddress z off = .error item) (i : Bool) :
    s.resolve i z off = .error item := by
  rw [State.resolve, h, error_bind]

theorem memRead_of_read_none {a : Word} (h : s.mem.read a = none) : s.memRead a = .error (.mem a) := by
  rw [State.memRead, h, readItem_none]

/-- The direct form is the intermediate address; the indirect form is the word it holds, or fails on that cell. -/
theorem resolve_of_baseAddress {b : Word} (h : s.baseAddress z off = .ok b) :
    s.resolve false z off = .ok b ∧
      (∀ v, s.mem.read b = some v → s.resolve true z off = .ok v) ∧
      (s.mem.read b = none → s.resolve true z off = .error (.mem b)) := by
  refine ⟨resolve_ok.2 ⟨b, h, rfl⟩, fun v hv => resolve_ok.2 ⟨b, h, hv⟩, fun hnone => ?_⟩
  rw [State.resolve, h, ok_bind, if_pos rfl, memRead_of_read_none hnone]

end

/-- Settles O3: on either page the modes follow from the intermediate address, which without PC only page zero has. -/
theorem effectiveAddressOfTheFourModes : Obligations.EffectiveAddressOfTheFourModes :=
  ⟨fun _ _ _ hpc => resolve_of_baseAddress (baseAddress_currentPage hpc),
    fun _ _ => resolve_of_baseAddress baseAddress_pageZero,
    fun _ i _ hpc => resolve_of_baseAddress_error (baseAddress_currentPage_of_pc_none hpc) i⟩

end Sys2Proof.Machine
end

section
/-! SUPPORT. What the memory-reference instructions compute, and that they complete, where all that they read has a value
(42_memory_reference R130 to R136), and the words that decode to them (30_encoding R61, R67). -/

namespace Sys2Proof.Machine

open Sys2Proof

/-! ### The decoder on opcodes 0 to 5 (R61, R67) -/

/-- `Rules.memRefs` lists the six instructions by their opcode. -/
theorem decode_of_memRef_opcode {w : Word} (op : Fin 6) (h : w.extractLsb' 9 3 = BitVec.ofNat 3 op) :
    decode w = (Sys2Proof.Rules.memRefs (w.getLsbD 8) (w.getLsbD 7) (w.extractLsb' 0 7)).get op := by
  have hop : opcodeField w = BitVec.ofNat 3 op := h
  rw [decode, hop]
  fin_cases op <;> rfl

/-! ### The arithmetic of TAD and ISZ (R130, R133) -/

/-- Add12 is addition mod 4096, and its carry says that the exact sum needs more than 12 bits (R130). -/
theorem add12_eq (x y : Word) : add12 x y = (x + y, decide (0o7777 < x.toNat + y.toNat)) := by
  have hsum : BitVec.ofNat 12 (x.toNat + y.toNat) = x + y := by simp [BitVec.ofNat_add]
  have hcarry : (x + y).toNat ≠ x.toNat + y.toNat ↔ 0o7777 < x.toNat + y.toNat := by bv_omega
  simp only [add12, hsum, ← hcarry, bne, decide_not]
  rfl

/-- The increment is zero only where it wraps (R133). -/
theorem add_one_eq_zero_iff {y : Word} : y + 1#12 = 0#12 ↔ y = 0o7777#12 := by bv_omega

/-! ### The six results -/

/-- Settles O4: the three reads that AND makes all have a value. -/
theorem andResult : Obligations.AndResult := by
  refine ⟨fun w => decode_of_memRef_opcode 0, fun s i z off ea x y hea hx hy => conclude_of_ok ?_⟩
  exact bind_ok.2 ⟨ea, hea, bind_ok.2 ⟨x, readAc_ok.2 hx, bind_ok.2 ⟨y, memRead_ok.2 hy, rfl⟩⟩⟩

/-- Settles O5: TAD makes the reads of AND, and writes the sum and the carry of Add12. -/
theorem tadResult : Obligations.TadResult := by
  refine ⟨fun w => decode_of_memRef_opcode 1, fun s i z off ea x y hea hx hy => conclude_of_ok ?_⟩
  refine bind_ok.2 ⟨ea, hea, bind_ok.2 ⟨x, readAc_ok.2 hx, bind_ok.2 ⟨y, memRead_ok.2 hy, ?_⟩⟩⟩
  rw [add12_eq]
  rfl

/-- Settles O6: ISZ stores in either case, and skips where the increment wraps. -/
theorem iszResult : Obligations.IszResult := by
  refine ⟨fun w => decode_of_memRef_opcode 2, fun s i z off ea y pc hea hy hpc => conclude_of_ok ?_⟩
  refine bind_ok.2 ⟨ea, hea, bind_ok.2 ⟨y, memRead_ok.2 hy, ?_⟩⟩
  by_cases hwrap : y = 0o7777#12
  · rw [if_pos hwrap]
    exact (if_pos (add_one_eq_zero_iff.2 hwrap)).trans (skip_ok.2 ⟨pc, hpc, rfl⟩)
  · rw [if_neg hwrap, ← hpc]
    exact if_neg (mt add_one_eq_zero_iff.1 hwrap)

/-- Settles O7: DCA stores AC and only then clears it. -/
theorem dcaResult : Obligations.DcaResult := by
  refine ⟨fun w => decode_of_memRef_opcode 3, fun s i z off ea x hea hx => conclude_of_ok ?_⟩
  exact bind_ok.2 ⟨ea, hea, bind_ok.2 ⟨x, readAc_ok.2 hx, rfl⟩⟩

/-- Settles O8: the PC that JMS stores is the one that the fetch advanced. -/
theorem jmsResult : Obligations.JmsResult := by
  refine ⟨fun w => decode_of_memRef_opcode 4, fun s i z off ea a hea hpc => conclude_of_ok ?_⟩
  exact bind_ok.2 ⟨ea, hea, bind_ok.2 ⟨a + 1#12, readPc_ok.2 hpc, rfl⟩⟩

/-- Settles O9: JMP needs the effective address alone. -/
theorem jmpResult : Obligations.JmpResult :=
  ⟨fun _ => decode_of_memRef_opcode 5, fun _ _ _ _ ea hea => conclude_of_ok (bind_ok.2 ⟨ea, hea, rfl⟩)⟩

end Sys2Proof.Machine
end

section
/-! SUPPORT. The IOT words by their device code (30_encoding R62), what the punch leaves where AC, PF and PC have a
value (43_iot R152 to R155), and the whole step of an instruction that ends in the fatal stop (40_cycle R107, R110). -/

namespace Sys2Proof.Machine

open Sys2Proof Sys2Proof.Laws

/-! ### The decoder on IOT words (R62) -/

section
variable {w : Word}

theorem decode_of_iot (hop : opcodeField w = 0o6#3) : decode w = decodeIot w := by
  simp [decode, hop]

theorem decode_of_reader_device (hop : opcodeField w = 0o6#3) (hdev : deviceField w = 0o03#6) :
    decode w = .iotReader (opsField w) :=
  (decode_of_iot hop).trans (if_pos hdev)

theorem decode_of_punch_device (hop : opcodeField w = 0o6#3) (hdev : deviceField w = 0o04#6) :
    decode w = .iotPunch (w.getLsbD 0) (w.getLsbD 1) (w.getLsbD 2) := by
  have hreader : deviceField w ≠ 0o03#6 := by simp [hdev]
  exact (decode_of_iot hop).trans ((if_neg hreader).trans (if_pos hdev))

theorem decode_of_unknown_device (hop : opcodeField w = 0o6#3) (hreader : deviceField w ≠ 0o03#6)
    (hpunch : deviceField w ≠ 0o04#6) : decode w = .iotUnknown (deviceField w) (opsField w) :=
  (decode_of_iot hop).trans ((if_neg hreader).trans (if_neg hpunch))

/-- The upper nine bits of a word and its operation bits make up the word, so they tell the IOT words of one device. -/
theorem opcodeField_deviceField_of_upper {dev : BitVec 6} (h : w.extractLsb' 3 9 = 0o6#3 ++ dev) :
    opcodeField w = 0o6#3 ∧ deviceField w = dev := by
  have hsplit : w.extractLsb' 3 9 ++ opsField w = w := BitVec.extractLsb'_append_extractLsb'
  have hw : w = encodeIot dev (opsField w) := by
    rw [h] at hsplit
    exact hsplit.symm
  rw [hw]
  exact ⟨opcodeField_encodeIot _ _, deviceField_encodeIot _ _⟩

end

/-! ### The punch, one equation for each operation bit (R153 to R155) -/

section
variable {s : State} {ready : Bool} {pc x : Word}

theorem punchSkip_of_values (skip : Bool) (hpf : s.pf = some ready) (hpc : s.pc = some pc) :
    punchSkip skip s = .ok { s with
      pc := some (if skip && ready then pc + 1#12 else pc)
      pf := some (ready && !(skip && Config.punchSkipClearsFlag)) } := by
  have hsame : s = { s with pc := some pc, pf := some ready } := by rw [← hpf, ← hpc]
  cases skip with
  | false => exact congrArg Except.ok (by simpa using hsame)
  | true =>
    refine bind_ok.2 ⟨ready, readPf_ok.2 hpf, ?_⟩
    cases ready with
    | false => exact congrArg Except.ok (by simpa using hsame)
    | true =>
      refine bind_ok.2 ⟨s.setPc (pc + 1#12), skip_ok.2 ⟨pc, hpc, rfl⟩, ?_⟩
      cases Config.punchSkipClearsFlag with
      | false => exact congrArg Except.ok (by simp [State.setPc, hpf])
      | true => rfl

theorem punchClear_of_pf (clear : Bool) (hpf : s.pf = some ready) :
    punchClear clear s = { s with pf := some (!clear && ready) } := by
  cases clear with
  | false => simp [punchClear, ← hpf]
  | true => rfl

theorem punchSend_of_values (send : Bool) (hac : s.ac = some x) (hpf : s.pf = some ready) :
    punchSend send s = .ok { s with
      pf := some (send || ready), out := if send && x != 0#12 then s.out ++ [x] else s.out } := by
  cases send with
  | false => exact congrArg Except.ok (by simp [← hpf])
  | true =>
    refine bind_ok.2 ⟨x, readAc_ok.2 hac, congrArg Except.ok ?_⟩
    by_cases hx : x = 0#12 <;> simp [hx, State.setPf, State.punch]

end

/-! ### The end of a step whose handler raised a fatal error (R107, R110) -/

section
variable {s : State} {a w : Word} {e : ErrorRecord}

/-- The machine has stopped already. -/
theorem endStepping_fatal : (s.fatal e).endStepping = s.fatal e :=
  (endStepping_cases (s.fatal e)).elim And.right And.right

/-- The step keeps the fetch and the PC advance, and emits no event. -/
theorem step_of_exec_fatal (hrun : s.running = true) (hfault : s.fault = none) (hpc : s.pc = some a)
    (hw : s.mem.read a = some w) (h : exec (decode w) (s.fetched a w) = .next ((s.fetched a w).fatal e)) :
    step s = .next ((s.fetched a w).fatal e) := by
  rw [step_of_word hrun hfault hpc hw, h]
  exact congrArg Host.Outcome.next endStepping_fatal

end

/-! ### The three devices -/

/-- Settles O13: the upper nine bits select the reader, whose handler does nothing. -/
theorem readerHasNoEffect : Obligations.ReaderHasNoEffect := by
  refine ⟨fun w hw => ?_, fun _ _ => rfl⟩
  obtain ⟨hop, hdev⟩ := opcodeField_deviceField_of_upper (dev := 0o03#6) hw
  exact decode_of_reader_device hop hdev

/-- Settles O14: each operation bit acts on what the one before left, in which AC and PF still have a value. -/
theorem punchResult : Obligations.PunchResult := by
  refine ⟨fun w hw => ?_, fun s skip clear send ready x pc hac hpf hpc => conclude_of_ok ?_⟩
  · obtain ⟨hop, hdev⟩ := opcodeField_deviceField_of_upper (dev := 0o04#6) hw
    exact decode_of_punch_device hop hdev
  · rw [punchSkip_of_values skip hpf hpc, ok_bind, punchClear_of_pf clear rfl]
    exact punchSend_of_values send hac rfl

/-- Settles O16: the handler is a fatal stop, and the fetch has advanced PC, so its record names the address fetched
from. -/
theorem unknownDeviceStops : Obligations.UnknownDeviceStops := by
  refine ⟨fun _ _ _ => rfl, fun s a w hrun hfault hpc hw hop hreader hpunch => ?_⟩
  have haddr : (s.fetched a w).instrAddr = some a := instrAddr_of_pc rfl
  refine step_of_exec_fatal hrun hfault hpc hw ?_
  rw [decode_of_unknown_device hop hreader hpunch, ← haddr]
  rfl

end Sys2Proof.Machine
end

section
/-! SUPPORT. What the Group-1 instructions compute where AC and L have a value: the pair of both through the sequencer
(44_operate_group1 R171 to R184), the words of the group by their bits (30_encoding R63, R64), and the operate
instructions that need only one of the two, or neither. -/

namespace Sys2Proof.Machine

open Sys2Proof

/-! ### The decoder on Group-1 words (R63, R64, R71) -/

section
variable {w : Word}

/-- The top four bits of a word hold its opcode, and the bit that selects a group of operate words. -/
theorem opcodeField_getLsbD_eight_of_top {b : BitVec 4} (h : w.extractLsb' 8 4 = b) :
    opcodeField w = b.extractLsb' 1 3 ∧ w.getLsbD 8 = b.getLsbD 0 := by
  subst h
  refine ⟨?_, by simp⟩
  ext k hk
  have hk' : 1 + k < 4 := by omega
  simp [opcodeField, hk', ← Nat.add_assoc]

theorem decode_of_group1 (h : w.extractLsb' 8 4 = 0b1110#4) : decode w = decodeGroup1 w := by
  obtain ⟨hop, hselector⟩ := opcodeField_getLsbD_eight_of_top h
  rw [decode_of_opr hop, decodeOpr, hselector]
  rfl

/-- An instruction of Group 1, named or not, that stands for the bits `g`. -/
abbrev HasGroup1Bits (g : Group1) (ins : Instr) : Prop := ins ∈ Sys2Proof.Rules.group1Instrs g ∧ group1Bits ins = g

/-- Each named word is checked as it is tried, and the generic row has the word's bits as they stand. -/
theorem hasGroup1Bits_decodeGroup1 (w : Word) : HasGroup1Bits (group1Field w) (decodeGroup1 w) := by
  iterate 10 refine iteInduction (fun h => by subst h; decide) fun _ => ?_
  exact ⟨List.mem_cons_self, rfl⟩

/-- A Group-1 word does what its bits say, with a row of its own or without. -/
theorem exec_decode_of_group1 (h : w.extractLsb' 8 4 = 0b1110#4) (s : State) :
    exec (decode w) s = exec (.oprGroup1 (group1Field w)) s := by
  obtain ⟨hmem, hbits⟩ := hasGroup1Bits_decodeGroup1 w
  rw [decode_of_group1 h, exec_eq_exec_group1Bits hmem, hbits]

end

/-! ### AC and L as a pair (R22) -/

/-- AC and L hold the pair `p`, and nothing else has changed. -/
def State.setAcLink (s : State) (p : Word × Bool) : State := (s.setAc p.1).setLink p.2

section
variable {s : State} {x : Word} {l : Bool}

theorem setAcLink_self (hac : s.ac = some x) (hlink : s.link = some l) : s.setAcLink (x, l) = s := by
  simp [State.setAcLink, State.setAc, State.setLink, ← hac, ← hlink]

end

/-! ### The rotates in the rules' own arithmetic (R177, R178, R186) -/

theorem rotateRight_eq_rules (x : Word) (l : Bool) : rotateRight x l = Sys2Proof.Rules.rar (x, l) := by
  cases l <;> rfl

theorem rotateLeft_eq_rules (x : Word) (l : Bool) : rotateLeft x l = Sys2Proof.Rules.ral (x, l) := by
  cases l <;> rfl

theorem extended_injective {p q : Word × Bool} (h : extended p.1 p.2 = extended q.1 q.2) : p = q := by
  have hlink : BitVec.ofBool p.2 = BitVec.ofBool q.2 := by
    simpa only [extended, BitVec.extractLsb'_append_eq_left] using congrArg (BitVec.extractLsb' 12 1) h
  have hac : p.1 = q.1 := by
    simpa only [extended, BitVec.extractLsb'_append_eq_right] using congrArg (BitVec.extractLsb' 0 12) h
  exact Prod.ext hac (BitVec.ofBool_eq_iff_eq.1 hlink)

theorem rotateLeft_one_rotateRight_one (e : BitVec 13) : (e.rotateRight 1).rotateLeft 1 = e := by
  ext k hk
  simp only [BitVec.getElem_rotateLeft, BitVec.getElem_rotateRight]
  grind

theorem rotateRight_one_rotateLeft_one (e : BitVec 13) : (e.rotateLeft 1).rotateRight 1 = e := by
  ext k hk
  simp only [BitVec.getElem_rotateLeft, BitVec.getElem_rotateRight]
  grind

theorem extended_rules_rar (p : Word × Bool) :
    extended (Sys2Proof.Rules.rar p).1 (Sys2Proof.Rules.rar p).2 = (extended p.1 p.2).rotateRight 1 := by
  rw [← extended_rotateRight, rotateRight_eq_rules]

theorem extended_rules_ral (p : Word × Bool) :
    extended (Sys2Proof.Rules.ral p).1 (Sys2Proof.Rules.ral p).2 = (extended p.1 p.2).rotateLeft 1 := by
  rw [← extended_rotateLeft, rotateLeft_eq_rules]

theorem ral_rar (p : Word × Bool) : Sys2Proof.Rules.ral (Sys2Proof.Rules.rar p) = p :=
  extended_injective (by rw [extended_rules_ral, extended_rules_rar, rotateLeft_one_rotateRight_one])

theorem rar_ral (p : Word × Bool) : Sys2Proof.Rules.rar (Sys2Proof.Rules.ral p) = p :=
  extended_injective (by rw [extended_rules_rar, extended_rules_ral, rotateRight_one_rotateLeft_one])

/-! ### The micro-operations, where what each reads has a value (R174 to R176) -/

section
variable {s : State} {x : Word} {l : Bool}

theorem microCma_of_ac (hac : s.ac = some x) : microCma s = .ok (s.setAc (~~~x)) :=
  bind_ok.2 ⟨x, readAc_ok.2 hac, rfl⟩

theorem microCml_of_link (hlink : s.link = some l) : microCml s = .ok (s.setLink (!l)) :=
  bind_ok.2 ⟨l, readLink_ok.2 hlink, rfl⟩

/-- The increment carries only where it wraps. -/
theorem add12_one (x : Word) : add12 x 1#12 = (x + 1#12, decide (x = 0o7777#12)) := by
  have hcarry : 0o7777 < x.toNat + (1#12).toNat ↔ x = 0o7777#12 := by bv_omega
  rw [add12_eq, decide_eq_decide.2 hcarry]

theorem microIac_of_ac (hac : s.ac = some x) :
    microIac s = .ok (s.setAcLink (x + 1#12, decide (x = 0o7777#12))) := by
  refine bind_ok.2 ⟨x, readAc_ok.2 hac, ?_⟩
  rw [add12_one]
  rfl

end

/-! ### The sequencer on the pair (R171, R184) -/

section
variable {g : Group1} {s : State}

/-- Sequences 1 to 3 leave the pair of the rules for sequence 4. -/
theorem group1Sequence_of_values {x : Word} {l : Bool} (hac : s.ac = some x) (hlink : s.link = some l) :
    group1Sequence g s = microRotate g (s.setAcLink (Sys2Proof.Rules.sequences123 g x l)) := by
  have cla (x l) : microIf g.cla microCla (s.setAcLink (x, l)) = .ok (s.setAcLink (if g.cla then 0#12 else x, l)) := by
    cases g.cla <;> rfl
  have cll (x l) : microIf g.cll microCll (s.setAcLink (x, l)) = .ok (s.setAcLink (x, if g.cll then false else l)) := by
    cases g.cll <;> rfl
  have cma (x l) : microIf g.cma microCma (s.setAcLink (x, l)) = .ok (s.setAcLink (if g.cma then ~~~x else x, l)) := by
    cases g.cma <;> rfl
  have cml (x l) : microIf g.cml microCml (s.setAcLink (x, l)) = .ok (s.setAcLink (x, if g.cml then !l else l)) := by
    cases g.cml <;> rfl
  have iac (x l) : microIf g.iac microIac (s.setAcLink (x, l)) =
      .ok (s.setAcLink (if g.iac then (x + 1#12, decide (x = 0o7777#12)) else (x, l))) := by
    cases g.iac with
    | false => rfl
    | true => exact microIac_of_ac rfl
  conv_lhs => rw [← setAcLink_self hac hlink]
  simp only [group1Sequence, cla, cll, cma, cml, iac, ok_bind]
  rfl

theorem microRar_setAcLink (p : Word × Bool) :
    microRar (s.setAcLink p) = .ok (s.setAcLink (Sys2Proof.Rules.rar p)) := by
  rw [microRar_of_values rfl rfl, rotateRight_eq_rules]
  rfl

theorem microRal_setAcLink (p : Word × Bool) :
    microRal (s.setAcLink p) = .ok (s.setAcLink (Sys2Proof.Rules.ral p)) := by
  rw [microRal_of_values rfl rfl, rotateLeft_eq_rules]
  rfl

/-- A rotate of the pair, once or twice. -/
theorem microRepeat_setAcLink {op : State → Except Item State} {rotate : Word × Bool → Word × Bool}
    (hop : ∀ p, op (s.setAcLink p) = .ok (s.setAcLink (rotate p))) (two : Bool) (p : Word × Bool) :
    microRepeat two op (s.setAcLink p) = .ok (s.setAcLink (if two then rotate (rotate p) else rotate p)) := by
  cases two with
  | false => exact hop p
  | true => exact bind_ok.2 ⟨_, hop p, hop (rotate p)⟩

theorem microRotate_setAcLink (hone : (g.rar && g.ral) = false) (p : Word × Bool) :
    microRotate g (s.setAcLink p) = .ok (s.setAcLink (Sys2Proof.Rules.sequence4 g p)) := by
  unfold microRotate Sys2Proof.Rules.sequence4
  cases hrar : g.rar <;> cases hral : g.ral
  case false.false => rfl
  case false.true => exact microRepeat_setAcLink microRal_setAcLink g.two p
  case true.false => exact microRepeat_setAcLink microRar_setAcLink g.two p
  case true.true => simp [hrar, hral] at hone

/-- Every Group-1 instruction without both rotates, named or not, leaves the pair of the rules for its bits. -/
theorem exec_group1_of_values {ins : Instr} {x : Word} {l : Bool} (hins : ins ∈ Sys2Proof.Rules.group1Instrs g)
    (hone : ((group1Bits ins).rar && (group1Bits ins).ral) = false) (hac : s.ac = some x) (hlink : s.link = some l) :
    exec ins s = .next (s.setAcLink
      (Sys2Proof.Rules.sequence4 (group1Bits ins) (Sys2Proof.Rules.sequences123 (group1Bits ins) x l))) := by
  rw [exec_eq_exec_group1Bits hins]
  exact conclude_of_ok ((group1Sequence_of_values hac hlink).trans (microRotate_setAcLink hone _))

/-- The named Group-1 instructions have one rotate at most. -/
theorem exec_namedGroup1_of_values {ins : Instr} {x : Word} {l : Bool} (hins : ins ∈ Sys2Proof.Rules.group1Instrs {})
    (hac : s.ac = some x) (hlink : s.link = some l) :
    exec ins s = .next (s.setAcLink
      (Sys2Proof.Rules.sequence4 (group1Bits ins) (Sys2Proof.Rules.sequences123 (group1Bits ins) x l))) :=
  exec_group1_of_values hins (group1Bits_not_both_rotates hins (.inl rfl)) hac hlink

theorem exec_rar_setAcLink (p : Word × Bool) :
    exec .rar (s.setAcLink p) = .next (s.setAcLink (Sys2Proof.Rules.rar p)) :=
  conclude_of_ok (s := s.setAcLink p) (microRar_setAcLink p)

theorem exec_ral_setAcLink (p : Word × Bool) :
    exec .ral (s.setAcLink p) = .next (s.setAcLink (Sys2Proof.Rules.ral p)) :=
  conclude_of_ok (s := s.setAcLink p) (microRal_setAcLink p)

end

/-! ### The sequencer's results, the undefined rotate and the rotate law -/

/-- Settles O22: each stage acts on the pair of AC and L, and a named word stands for its own bits. -/
theorem group1SequencerResult : Obligations.Group1SequencerResult :=
  ⟨fun _ _ _ _ hac hlink hone => exec_group1_of_values List.mem_cons_self hone hac hlink,
    fun s _ hw => exec_decode_of_group1 hw s⟩

/-- Settles O23: the draw takes what sequences 1 to 3 left, so the instruction completes with whatever it gives. -/
theorem undefinedRotateIsADraw : Obligations.UndefinedRotateIsADraw := by
  intro s g x l hac hlink hrar hral
  refine conclude_of_ok ((group1Sequence_of_values hac hlink).trans ?_)
  simp only [microRotate, hrar, hral]
  rfl

/-- Settles O27: on L:AC the two rotates are inverse to each other. -/
theorem rotateLaw : Obligations.RotateLaw := by
  intro s x l hac hlink
  have hself := setAcLink_self hac hlink
  constructor
  · refine ⟨s.setAcLink (Sys2Proof.Rules.rar (x, l)), ?_, ?_⟩
    · rw [← exec_rar_setAcLink, hself]
    · rw [exec_ral_setAcLink, ral_rar, hself]
  · refine ⟨s.setAcLink (Sys2Proof.Rules.ral (x, l)), ?_, ?_⟩
    · rw [← exec_ral_setAcLink, hself]
    · rw [exec_rar_setAcLink, rar_ral, hself]

/-! ### The named words -/

/-- Settles O18: the clears read nothing, and each complement reads only what it writes. -/
theorem clearsAndComplements : Obligations.ClearsAndComplements := by
  refine ⟨by decide, fun _ => ⟨rfl, rfl⟩, fun _ => rfl, fun s x hac => ?_, fun s l hlink => ?_⟩
  · have hcomplement : 0o7777#12 - x = ~~~x := BitVec.allOnes_sub_eq_not x
    rw [hcomplement]
    exact conclude_of_ok (microCma_of_ac hac)
  · exact conclude_of_ok (microCml_of_link hlink)

/-- Settles O19: IAC reads AC alone, and its carry says whether the increment wraps. -/
theorem iacResult : Obligations.IacResult :=
  ⟨by decide, fun _ _ hac => conclude_of_ok (microIac_of_ac hac)⟩

/-- Settles O20: the sequencer's result for a word with one rotate bit, and with the mode bit or without. -/
theorem rotateResults : Obligations.RotateResults := by
  refine ⟨by decide, fun s x l hac hlink => ?_⟩
  have named {ins} (hins : ins ∈ Sys2Proof.Rules.group1Instrs {}) := exec_namedGroup1_of_values hins hac hlink
  exact ⟨named (ins := .rar) (by decide), named (ins := .ral) (by decide), named (ins := .rtr) (by decide),
    named (ins := .rtl) (by decide)⟩

/-- Settles O21: neither handler reads or writes anything. -/
theorem wordsWithoutEffect : Obligations.WordsWithoutEffect := ⟨by decide, fun _ => ⟨rfl, rfl⟩⟩

/-- The OR does not depend on the order of the values (R223). -/
theorem operateWord_perm {values values' : List Word} (h : values.Perm values') :
    operateWord values = operateWord values' :=
  h.foldr_op_eq

/-- The bits of CLA CMA IAC RAL (R185). -/
def claCmaIacRal : Group1 := { cla := true, cma := true, iac := true, ral := true }

theorem decode_claCmaIacRal : decode 0o7245#12 = .oprGroup1 claCmaIacRal := by decide

/-- CLA clears AC first, so the pair does not depend on it; CMA and IAC then carry out of it, and RAL rotates the carry
in. -/
theorem sequences_claCmaIacRal (x : Word) :
    Sys2Proof.Rules.sequence4 claCmaIacRal (Sys2Proof.Rules.sequences123 claCmaIacRal x false) = (1#12, false) :=
  calc
    _ = Sys2Proof.Rules.sequence4 claCmaIacRal (Sys2Proof.Rules.sequences123 claCmaIacRal 0#12 false) := rfl
    _ = (1#12, false) := by decide

/-- Settles O26: CLA makes the result the same for every AC, and the order of the mnemonics does not matter to the
word. -/
theorem claCmaIacRalExample : Obligations.ClaCmaIacRalExample := by
  refine ⟨decode_claCmaIacRal, fun s x hac hlink => ?_, fun values h => ?_⟩
  · have hexec := exec_group1_of_values (g := claCmaIacRal) List.mem_cons_self rfl hac hlink
    rw [decode_claCmaIacRal, hexec, group1Bits, sequences_claCmaIacRal]
    rfl
  · rw [operateWord_perm h]
    decide

end Sys2Proof.Machine
end

section
/-! SUPPORT. What the Group-2 instructions compute where the items they read have a value: the sequencer stage by stage
(45_operate_group2 R190 to R206), the OPR words of Group 2 and of neither group by their bits (30_encoding R63, R65),
and the whole step of a HLT (40_cycle R107). -/

namespace Sys2Proof.Machine

open Sys2Proof Sys2Proof.Laws

/-! ### The decoder on the OPR words with IR[8] set (R63, R65, R71) -/

section
variable {w : Word}

theorem decode_of_opr_bit_eight (h : w.extractLsb' 8 4 = 0b1111#4) :
    decode w = if w.getLsbD 0 then .oprNeither (w.extractLsb' 1 7) else decodeGroup2 w := by
  obtain ⟨hop, hselector⟩ := opcodeField_getLsbD_eight_of_top h
  exact (decode_of_opr hop).trans (if_pos hselector)

theorem decode_of_group2 (h : w.extractLsb' 8 4 = 0b1111#4) (hlowest : w.getLsbD 0 = false) :
    decode w = decodeGroup2 w :=
  (decode_of_opr_bit_eight h).trans (if_neg (Bool.eq_false_iff.1 hlowest))

theorem decode_of_neither_group (h : w.extractLsb' 8 4 = 0b1111#4) (hlowest : w.getLsbD 0 = true) :
    decode w = .oprNeither (w.extractLsb' 1 7) :=
  (decode_of_opr_bit_eight h).trans (if_pos hlowest)

/-- An instruction of Group 2, named or not, that stands for the bits `g`. -/
abbrev HasGroup2Bits (g : Group2) (ins : Instr) : Prop := ins ∈ Sys2Proof.Rules.group2Instrs g ∧ group2Bits ins = g

/-- Each named word is checked as it is tried, and the generic row has the word's bits as they stand. -/
theorem hasGroup2Bits_decodeGroup2 (w : Word) : HasGroup2Bits (group2Field w) (decodeGroup2 w) := by
  iterate 10 refine iteInduction (fun h => by subst h; decide) fun _ => ?_
  exact ⟨List.mem_cons_self, rfl⟩

/-- A Group-2 word does what its bits say, with a row of its own or without. -/
theorem exec_decode_of_group2 (h : w.extractLsb' 8 4 = 0b1111#4) (hlowest : w.getLsbD 0 = false) (s : State) :
    exec (decode w) s = exec (.oprGroup2 (group2Field w)) s := by
  obtain ⟨hmem, hbits⟩ := hasGroup2Bits_decodeGroup2 w
  rw [decode_of_group2 h hlowest, exec_eq_exec_group2Bits hmem, hbits]

end

/-! ### The skip test (R192, R193) -/

section
variable {s : State} {x : Word} {l : Bool}

theorem readAc_bind_pure (hac : s.ac = some x) (f : Word → Bool) : (s.readAc >>= fun y => pure (f y)) = .ok (f x) :=
  bind_ok.2 ⟨x, readAc_ok.2 hac, rfl⟩

theorem readLink_bind_pure (hlink : s.link = some l) (f : Bool → Bool) :
    (s.readLink >>= fun b => pure (f b)) = .ok (f l) :=
  bind_ok.2 ⟨l, readLink_ok.2 hlink, rfl⟩

/-- A condition of the OR family holds where it is enabled and its test says so. -/
theorem condition_ok_false (enabled b : Bool) : condition enabled (.ok b) false = .ok (enabled && b) := by
  cases enabled <;> rfl

/-- A condition of the AND family holds where it is not enabled or its test says so. -/
theorem condition_ok_true (enabled b : Bool) : condition enabled (.ok b) true = .ok (!enabled || b) := by
  cases enabled <;> rfl

theorem orFamilySkip_of_values (g : Group2) (hac : s.ac = some x) (hlink : s.link = some l) :
    s.orFamilySkip g = .ok ((g.sign && x.getLsbD 11) || (g.zero && x == 0#12) || (g.link && l)) := by
  simp only [State.orFamilySkip, readAc_bind_pure hac, readLink_ok.2 hlink, condition_ok_false, ok_bind]
  rfl

theorem andFamilySkip_of_values (g : Group2) (hac : s.ac = some x) (hlink : s.link = some l) :
    s.andFamilySkip g = .ok ((!g.sign || !x.getLsbD 11) && (!g.zero || x != 0#12) && (!g.link || !l)) := by
  simp only [State.andFamilySkip, readAc_bind_pure hac, readLink_bind_pure hlink, condition_ok_true, ok_bind]
  rfl

theorem skipTest_of_values (g : Group2) (hac : s.ac = some x) (hlink : s.link = some l) :
    s.skipTest g = .ok (Sys2Proof.Rules.skips g x l) := by
  unfold State.skipTest Sys2Proof.Rules.skips
  split
  · exact andFamilySkip_of_values g hac hlink
  · exact orFamilySkip_of_values g hac hlink

end

/-! ### The skip, the clear and the halt (R202, R203, R206) -/

section
variable {s : State} {pc x : Word}

theorem skipIf_of_pc (c : Bool) (hpc : s.pc = some pc) :
    skipIf c s = .ok { s with pc := some (if c then pc + 1#12 else pc) } := by
  cases c with
  | false => exact congrArg Except.ok (by simp [← hpc])
  | true => exact skip_ok.2 ⟨pc, hpc, rfl⟩

theorem clearIf_of_ac (c : Bool) (hac : s.ac = some x) :
    clearIf c s = { s with ac := some (if c then 0#12 else x) } := by
  cases c with
  | false => simp [clearIf, ← hac]
  | true => rfl

theorem microHlt_of_pc (hpc : s.pc = some pc) :
    microHlt s = .ok { s with running := false, trace := s.trace ++ [.halt pc] } :=
  microHlt_ok.2 ⟨pc, hpc, rfl⟩

theorem haltIf_of_pc (halt : Bool) (hpc : s.pc = some pc) :
    (if halt then microHlt s else pure s) = .ok { s with
      running := if halt then false else s.running
      trace := if halt then s.trace ++ [.halt pc] else s.trace } := by
  cases halt with
  | false => rfl
  | true => exact microHlt_of_pc hpc

/-- A skip test alone needs what the test reads, and PC. -/
theorem conclude_skipOn {test : Except Item Bool} {c : Bool} (htest : test = .ok c) (hpc : s.pc = some pc) :
    s.conclude (skipOn test s) = .next { s with pc := some (if c then pc + 1#12 else pc) } :=
  conclude_of_ok (bind_ok.2 ⟨c, htest, skipIf_of_pc c hpc⟩)

/-- A test of the AND family is the negation of the OR family's (R193). -/
theorem conclude_skipOn_not {test : Except Item Bool} {c : Bool} (htest : test = .ok (!c)) (hpc : s.pc = some pc) :
    s.conclude (skipOn test s) = .next { s with pc := some (if c then pc else pc + 1#12) } := by
  rw [conclude_skipOn htest hpc]
  cases c <;> rfl

end

/-! ### The end of a step whose handler halted (R107, R203) -/

section
variable {s : State} {a w : Word}

theorem endStepping_of_not_running (h : s.running = false) : s.endStepping = s := by
  rcases endStepping_cases s with ⟨-, hend⟩ | ⟨-, hend⟩
  · rw [hend, ← h]; rfl
  · exact hend

theorem emitExecuted_of_no_fault (h : s.fault = none) (a : Word) :
    s.emitExecuted a = s.emit (.instructionExecuted a s.ir s.ac s.link s.pc) :=
  ((emitExecuted_cases s a).resolve_right fun k => k.1 h).2

/-- InstructionExecuted is the last event, and a stepped run has nothing left to stop. -/
theorem step_of_exec_halts {u : State} (hrun : s.running = true) (hfault : s.fault = none) (hpc : s.pc = some a)
    (hw : s.mem.read a = some w) (h : exec (decode w) (s.fetched a w) = .next u) (hufault : u.fault = none)
    (hurun : u.running = false) : step s = .next (u.emit (.instructionExecuted a u.ir u.ac u.link u.pc)) := by
  rw [step_of_word hrun hfault hpc hw, h, outcomeMap, emitExecuted_of_no_fault hufault]
  exact congrArg Host.Outcome.next (endStepping_of_not_running hurun)

end

/-! ### The sequencer's result, the named words, and the words in neither group -/

/-- Settles O30: each stage acts on what the one before left, and a named word stands for its own bits. -/
theorem group2SequencerResult : Obligations.Group2SequencerResult := by
  refine ⟨fun s g x pc l hac hlink hpc => ?_, fun s w hw hlowest => exec_decode_of_group2 hw hlowest s⟩
  intro pc'
  have hclear : clearIf g.cla { s with pc := some pc' } =
      { s with pc := some pc', ac := some (if g.cla then 0#12 else x) } := clearIf_of_ac g.cla hac
  refine conclude_of_ok (bind_ok.2 ⟨_, skipTest_of_values g hac hlink, bind_ok.2 ⟨_, skipIf_of_pc _ hpc, ?_⟩⟩)
  rw [hclear]
  exact haltIf_of_pc g.hlt rfl

/-- Settles O31: each test reads one item and its result decides the skip; SKP has no test. -/
theorem skipTestResults : Obligations.SkipTestResults := by
  refine ⟨by decide, fun s x pc hac hpc => ?_, fun s l pc hlink hpc => ?_,
    fun s pc hpc => conclude_of_ok (skip_ok.2 ⟨pc, hpc, rfl⟩)⟩
  · have onAc (f : Word → Bool) := conclude_skipOn (readAc_bind_pure hac f) hpc
    have onAcNot (f : Word → Bool) := conclude_skipOn_not (readAc_bind_pure hac (!f ·)) hpc
    exact ⟨onAc isNegative, (onAc (· == 0#12)).trans (by simp), onAcNot isNegative,
      (onAcNot (· == 0#12)).trans (by simp)⟩
  · exact ⟨conclude_skipOn (readLink_ok.2 hlink) hpc, conclude_skipOn_not (readLink_bind_pure hlink (!·)) hpc⟩

/-- Settles O32: Halt holds the PC that the fetch advanced, and RUN is false before the step's own event. -/
theorem hltResult : Obligations.HltResult := by
  have hdecode : decode 0o7402#12 = .hlt := by decide
  have hexec {s : State} {pc : Word} (hpc : s.pc = some pc) :
      exec .hlt s = .next { s with running := false, trace := s.trace ++ [.halt pc] } :=
    conclude_of_ok (microHlt_of_pc hpc)
  refine ⟨hdecode, fun _ _ => hexec, fun s a hrun hfault hpc hw => ?_⟩
  rw [step_of_exec_halts hrun hfault hpc hw ((congrArg (exec · _) hdecode).trans (hexec rfl)) hfault rfl]
  simp [State.emit, State.fetched]

/-- Settles O35: the handler is a fatal stop, and the fetch has advanced PC, so its record names the address fetched
from. -/
theorem neitherGroupStops : Obligations.NeitherGroupStops := by
  refine ⟨fun _ _ => rfl, fun s a w hrun hfault hpc hw htop hlowest => ?_⟩
  have haddr : (s.fetched a w).instrAddr = some a := instrAddr_of_pc rfl
  refine step_of_exec_fatal hrun hfault hpc hw ?_
  rw [decode_of_neither_group htop hlowest, ← haddr]
  rfl

end Sys2Proof.Machine
end

section
/-! SUPPORT. The words that the assembler plants for the two instruction forms: a memory-reference word (46_assembler
R222, R227) and an operate word (R223). -/

namespace Sys2Proof.Machine

open Sys2Proof

/-! ### The page of a target, and the fields of a memory-reference word (R222) -/

/-- Two addresses have one page base exactly when they are on one page of 128 words. -/
theorem page_bits_eq_iff {v a : Word} : v &&& 0o7600#12 = a &&& 0o7600#12 ↔ v.toNat / 128 = a.toNat / 128 := by
  have hmask (x : Word) : x &&& 0o7600#12 = x >>> 7 <<< 7 :=
    (BitVec.shiftLeft_ushiftRight (x := x) (n := 7)).symm
  rw [hmask, hmask]
  bv_omega

theorem toNat_and_offset_mask (v : Word) : (v &&& 0o177#12).toNat = v.toNat % 128 :=
  (BitVec.toNat_and _ _).trans (Nat.and_two_pow_sub_one_eq_mod v.toNat 7)

/-- An address on page zero has its low seven bits alone. -/
theorem and_offset_mask_of_lt {v : Word} (h : v.toNat < 0o200) : v &&& 0o177#12 = v :=
  BitVec.eq_of_toNat_eq ((toNat_and_offset_mask v).trans (Nat.mod_eq_of_lt h))

/-- The memory-reference word in one equation: unless the page fault applies, the base with the line's I, with Z for an
explicit Z or a target off the page, and with the target's low bits. -/
theorem memRefWord_eq (base : Word) (i z : Bool) (v ic : Word) (text : Line) :
    memRefWord base i z v ic text =
      if z = false ∧ v.toNat / 128 ≠ ic.toNat / 128 ∧ 0o200 ≤ v.toNat then .error (.pageFaultError text)
      else .ok (base ||| (if i then 0o400#12 else 0#12) |||
        (if z || v.toNat / 128 != ic.toNat / 128 then 0o200#12 else 0#12) ||| (v &&& 0o177#12)) := by
  cases z
  case true => simp [memRefWord]
  case false =>
    by_cases hpage : v.toNat / 128 = ic.toNat / 128
    · simp [memRefWord, page_bits_eq_iff, hpage]
    · by_cases hlow : v.toNat < 0o200
      · simp [memRefWord, page_bits_eq_iff, hpage, hlow, and_offset_mask_of_lt hlow]
      · simp [memRefWord, page_bits_eq_iff, hpage, hlow]

/-- The encoder's fields do not overlap, so an OR of two of its words is an OR field by field. -/
theorem encodeMemRef_or (op op' : BitVec 3) (i i' z z' : Bool) (off off' : Offset) :
    encodeMemRef op i z off ||| encodeMemRef op' i' z' off' =
      encodeMemRef (op ||| op') (i || i') (z || z') (off ||| off') := by
  rw [encodeMemRef, encodeMemRef, BitVec.or_cast, BitVec.or_append, BitVec.or_append, BitVec.or_append,
    BitVec.ofBool_or_ofBool, BitVec.ofBool_or_ofBool, encodeMemRef]

/-- The low bits of a target are the offset field of a word whose other fields are 0. -/
theorem and_offset_mask_eq (v : Word) : v &&& 0o177#12 = encodeMemRef 0#3 false false (v.extractLsb' 0 7) := by
  refine BitVec.eq_of_toNat_eq ?_
  rw [toNat_and_offset_mask, encodeMemRef, BitVec.toNat_cast, BitVec.toNat_append]
  simp

/-- The assembler's OR of base, flags and low bits is the encoder's word. -/
theorem memRefFields_or (op : BitVec 3) (i z : Bool) (v : Word) :
    encodeMemRef op false false 0#7 ||| (if i then 0o400#12 else 0#12) ||| (if z then 0o200#12 else 0#12) |||
      (v &&& 0o177#12) = encodeMemRef op i z (v.extractLsb' 0 7) := by
  have hi : (if i then 0o400#12 else 0#12) = encodeMemRef 0#3 i false 0#7 := by cases i <;> rfl
  have hz : (if z then 0o200#12 else 0#12) = encodeMemRef 0#3 false z 0#7 := by cases z <;> rfl
  rw [hi, hz, and_offset_mask_eq]
  simp [encodeMemRef_or]

/-- The decoder reads the line's fields back from the word of a mnemonic whose base value is the encoder's word with no
field set. -/
theorem decode_of_memRefWord {c : Word × (Bool → Bool → Offset → Instr)} {op : BitVec 3}
    (hencode : ∀ i z off, encode (c.2 i z off) = encodeMemRef op i z off)
    (hbase : c.1 = encodeMemRef op false false 0#7) (hwf : ∀ i z off, (c.2 i z off).wf = true)
    {i z : Bool} {v ic w : Word} {text : Line} (h : memRefWord c.1 i z v ic text = .ok w) :
    decode w = c.2 i (z || v.toNat / 128 != ic.toNat / 128) (v.extractLsb' 0 7) := by
  rw [memRefWord_eq] at h
  split at h
  case isTrue => cases h
  case isFalse =>
    cases h
    rw [hbase, memRefFields_or, ← hencode, decodeEncodeRoundTrip _ (hwf _ _ _)]

/-- Settles O55: the six base values are the encoder's words with all fields 0, and the page fault is the error branch of
`memRefWord_eq`. -/
theorem memoryReferenceWordDecodes : Obligations.MemoryReferenceWordDecodes := by
  refine ⟨fun i z v ic w text c hc h => ?_, fun base v ic i z text => ?_⟩
  · simp only [List.mem_cons, List.not_mem_nil, or_false] at hc
    obtain ⟨op, hencode, hbase, hwf⟩ : ∃ op, (∀ i z off, encode (c.2 i z off) = encodeMemRef op i z off) ∧
        c.1 = encodeMemRef op false false 0#7 ∧ ∀ i z off, (c.2 i z off).wf = true := by
      obtain rfl | rfl | rfl | rfl | rfl | rfl := hc
      all_goals exact ⟨_, fun _ _ _ => rfl, rfl, fun _ _ _ => rfl⟩
    exact decode_of_memRefWord hencode hbase hwf h
  · rw [memRefWord_eq]
    split
    case isTrue hfault => exact iff_of_true rfl hfault
    case isFalse hfault => exact iff_of_false nofun hfault

/-! ### The operate word (R223) -/

/-- A bit of an operate word is set exactly where one of the values has it. -/
theorem getLsbD_operateWord (values : List Word) (k : Nat) :
    (operateWord values).getLsbD k = true ↔ ∃ v ∈ values, v.getLsbD k = true := by
  induction values with
  | nil => simp [operateWord]
  | cons v values ih =>
    have hcons : operateWord (v :: values) = v ||| operateWord values := rfl
    simp [hcons, ih]

/-- Settles O57: each bit of the word depends on the members of the list alone. -/
theorem operateWordIgnoresOrderAndRepetition : Obligations.OperateWordIgnoresOrderAndRepetition := by
  intro values values' hmem
  refine BitVec.eq_of_getLsbD_eq fun k _ => Bool.eq_iff_iff.2 ?_
  simp only [getLsbD_operateWord, hmem]

end Sys2Proof.Machine
end

section
/-! SUPPORT. The assembler's two passes (46_assembler R210 to R229): which error a source gives, what SYM holds after pass
1, and what pass 2 leaves at each address of the image. -/

namespace Sys2Proof.Machine

open Sys2Proof

/-! ### Sequencing, with an assembler error (R226) -/

section
variable {α β : Type} {x : Except AsmError α} {f : α → Except AsmError β}

theorem asm_bind_ok {b : β} : (x >>= f) = .ok b ↔ ∃ a, x = .ok a ∧ f a = .ok b := by
  cases x <;> simp [bind, Except.bind]

theorem asm_bind_error {e : AsmError} : (x >>= f) = .error e ↔ x = .error e ∨ ∃ a, x = .ok a ∧ f a = .error e := by
  cases x <;> simp [bind, Except.bind]

end

/-! ### Classifying the lines (R211, R214) -/

/-- A line that parsing passes over: it is ignored, or it matches a shape. -/
def LineAccepted (l : Line) : Prop := prepareLine l = [] ∨ classify (prepareLine l) ≠ none

theorem not_lineAccepted {l : Line} : ¬ LineAccepted l ↔ prepareLine l ≠ [] ∧ classify (prepareLine l) = none := by
  simp [LineAccepted]

theorem parseSource_cons_of_not_accepted {l : Line} (h : ¬ LineAccepted l) (ls : List Line) :
    parseSource (l :: ls) = .error (.syntaxError l) := by
  obtain ⟨hprepared, hnone⟩ := not_lineAccepted.1 h
  rw [parseSource, if_neg hprepared, hnone]

/-- An accepted line raises no error of its own: it only adds its statements, of which an ignored line has none. -/
theorem parseSource_cons_of_accepted {l : Line} (h : LineAccepted l) (ls : List Line) :
    ∃ added : List Stmt, parseSource (l :: ls) = parseSource ls >>= fun stmts => .ok (added ++ stmts) := by
  by_cases hprepared : prepareLine l = []
  · refine ⟨[], ?_⟩
    rw [parseSource, if_pos hprepared]
    cases parseSource ls <;> rfl
  · obtain ⟨⟨label, shape⟩, hclass⟩ := Option.ne_none_iff_exists'.1 (h.resolve_left hprepared)
    refine ⟨[{ text := l, label := label, shape := shape }], ?_⟩
    rw [parseSource, if_neg hprepared, hclass]
    rfl

/-- Where parsing succeeds, every line is accepted. -/
theorem lineAccepted_of_parseSource_ok {source : List Line} {stmts : List Stmt} (h : parseSource source = .ok stmts) :
    ∀ l ∈ source, LineAccepted l := by
  induction source generalizing stmts with
  | nil => simp
  | cons l ls ih =>
    by_cases hl : LineAccepted l
    · obtain ⟨added, hadd⟩ := parseSource_cons_of_accepted hl ls
      obtain ⟨stmts', hls, -⟩ := asm_bind_ok.1 (hadd.symm.trans h)
      exact List.forall_mem_cons.2 ⟨hl, ih hls⟩
    · cases (parseSource_cons_of_not_accepted hl ls).symm.trans h

/-- Where parsing fails, the error is a SyntaxError that names the first line that is not accepted. -/
theorem parseSource_error {source : List Line} {e : AsmError} (h : parseSource source = .error e) :
    ∃ before text after, source = before ++ text :: after ∧ e = .syntaxError text ∧ ¬ LineAccepted text ∧
      ∀ l ∈ before, LineAccepted l := by
  induction source with
  | nil => cases h
  | cons l ls ih =>
    by_cases hl : LineAccepted l
    · obtain ⟨added, hadd⟩ := parseSource_cons_of_accepted hl ls
      have hls : parseSource ls = .error e := (asm_bind_error.1 (hadd.symm.trans h)).resolve_right (by simp)
      obtain ⟨before, text, after, rfl, he, htext, hbefore⟩ := ih hls
      exact ⟨l :: before, text, after, rfl, he, htext, List.forall_mem_cons.2 ⟨hl, hbefore⟩⟩
    · cases (parseSource_cons_of_not_accepted hl ls).symm.trans h
      exact ⟨[], l, ls, rfl, rfl, hl, nofun⟩

/-! ### What the assembler answers (R210, R226) -/

theorem assemble_eq (source : List Line) :
    assemble source = parseSource source >>= fun stmts =>
      pass2 (pass1 stmts).sym 0#12 { planted := [] } stmts >>= fun img => .ok (img, (pass1 stmts).sym) := rfl

theorem assemble_error {source : List Line} {e : AsmError} :
    assemble source = .error e ↔
      parseSource source = .error e ∨
        ∃ stmts, parseSource source = .ok stmts ∧ pass2 (pass1 stmts).sym 0#12 { planted := [] } stmts = .error e := by
  simp [assemble_eq, asm_bind_error]

theorem assemble_ok {source : List Line} {img : Image} {sym : SymTab} :
    assemble source = .ok (img, sym) ↔
      ∃ stmts, parseSource source = .ok stmts ∧ sym = (pass1 stmts).sym ∧
        pass2 sym 0#12 { planted := [] } stmts = .ok img := by
  simp only [assemble_eq, asm_bind_ok, Except.ok.injEq, Prod.mk.injEq]
  refine exists_congr fun stmts => and_congr_right fun _ => ⟨?_, ?_⟩
  · rintro ⟨_, himg, rfl, rfl⟩
    exact ⟨rfl, himg⟩
  · rintro ⟨rfl, himg⟩
    exact ⟨img, himg, rfl, rfl⟩

/-! ### The errors of pass 2 (R225, R227) -/

section
variable {sym : SymTab} {ic : Word} {text : Line} {e : AsmError}

theorem evalTerm_error {t : Term} (h : evalTerm sym ic text t = .error e) :
    ∃ name, e = .undefinedSymbolError name text := by
  cases t with
  | here => cases h
  | numeral v => cases h
  | symbol name =>
    rw [evalTerm] at h
    split at h
    · cases h
    · exact ⟨name, (Except.error.inj h).symm⟩

/-- An expression with two terms fails where one of them does. -/
theorem evalExpr_error {x : OffsetExpr} (h : evalExpr sym ic text x = .error e) :
    ∃ name, e = .undefinedSymbolError name text := by
  cases x with
  | single t => exact evalTerm_error h
  | sum t1 t2 | difference t1 t2 =>
    obtain h1 | ⟨v1, -, h⟩ := asm_bind_error.1 h
    · exact evalTerm_error h1
    · obtain h2 | ⟨v2, -, h⟩ := asm_bind_error.1 h
      · exact evalTerm_error h2
      · cases h

theorem memRefWord_error {base v : Word} {i z : Bool} (h : memRefWord base i z v ic text = .error e) :
    e = .pageFaultError text := by
  rw [memRefWord_eq] at h
  split at h
  · exact (Except.error.inj h).symm
  · cases h

/-- A memory-reference line evaluates its expression and plants the word of the value. -/
theorem plantedWord_memRef {base : Word} {i z : Bool} {x : OffsetExpr} {label : Option SymName} :
    plantedWord sym ic { text := text, label := label, shape := .memRef base i z x } =
      evalExpr sym ic text x >>= fun v => memRefWord base i z v ic text >>= fun w => .ok (some w) := rfl

theorem plantedWord_memRef_ok {base : Word} {i z : Bool} {x : OffsetExpr} {label : Option SymName}
    {planted : Option Word} :
    plantedWord sym ic { text := text, label := label, shape := .memRef base i z x } = .ok planted ↔
      ∃ v, evalExpr sym ic text x = .ok v ∧ ∃ w, memRefWord base i z v ic text = .ok w ∧ some w = planted := by
  simp only [plantedWord_memRef, asm_bind_ok, Except.ok.injEq]

theorem plantedWord_error {st : Stmt} (h : plantedWord sym ic st = .error e) :
    (∃ name, e = .undefinedSymbolError name st.text) ∨ e = .pageFaultError st.text := by
  obtain ⟨text, label, shape⟩ := st
  cases shape with
  | memRef base i z x =>
    obtain h | ⟨v, -, h⟩ := asm_bind_error.1 (plantedWord_memRef.symm.trans h)
    · exact .inl (evalExpr_error h)
    · obtain h | ⟨w, -, h⟩ := asm_bind_error.1 h
      · exact .inr (memRefWord_error h)
      · cases h
  | operate values | org n | constant n | reserve => cases h

end

/-- One line of pass 2 (R221): what it plants, if anything, stands in the image that the rest begins with. -/
theorem pass2_cons (sym : SymTab) (ic : Word) (img : Image) (st : Stmt) (rest : List Stmt) :
    pass2 sym ic img (st :: rest) =
      plantedWord sym ic st >>= fun planted => pass2 sym (nextIc ic st) (planted.elim img (img.plant ic)) rest := by
  rw [pass2]
  exact bind_congr fun planted => by cases planted <;> rfl

theorem pass2_error_ne_syntaxError {sym : SymTab} {ic : Word} {img : Image} {stmts : List Stmt} {e : AsmError}
    (h : pass2 sym ic img stmts = .error e) (text : Line) : e ≠ .syntaxError text := by
  induction stmts generalizing ic img with
  | nil => cases h
  | cons st rest ih =>
    rw [pass2_cons] at h
    obtain h | ⟨planted, -, h⟩ := asm_bind_error.1 h
    · obtain ⟨name, rfl⟩ | rfl := plantedWord_error h <;> nofun
    · exact ih h

/-- Settles O58: a SyntaxError is the error of parsing, and pass 2 begins only where parsing has accepted every line. -/
theorem syntaxErrorsComeFirst : Obligations.SyntaxErrorsComeFirst := by
  intro source e h
  obtain hparse | ⟨stmts, hparse, hpass2⟩ := assemble_error.1 h
  · obtain ⟨before, text, after, hsource, rfl, htext, hbefore⟩ := parseSource_error hparse
    obtain ⟨hprepared, hnone⟩ := not_lineAccepted.1 htext
    refine ⟨?_, fun hne => absurd rfl (hne text)⟩
    rintro _ ⟨⟩
    exact ⟨before, after, hsource, hprepared, hnone, hbefore⟩
  · exact ⟨fun text he => absurd he (pass2_error_ne_syntaxError hpass2 text),
      fun _ => lineAccepted_of_parseSource_ok hparse⟩

/-! ### The instruction counter (R220, R221) -/

/-- The counter after some lines is the two passes' own counter, line after line. -/
theorem counterAfter_cons (ic : Word) (st : Stmt) (rest : List Stmt) :
    Sys2Proof.Rules.counterAfter ic (st :: rest) = Sys2Proof.Rules.counterAfter (nextIc ic st) rest := by
  obtain ⟨text, label, shape⟩ := st
  cases shape <;> rfl

/-! ### Pass 1 (R220) -/

theorem value_cons (sym : SymTab) (n name : SymName) (w : Word) :
    SymTab.value ((n, w) :: sym) name = if n = name then some w else SymTab.value sym name := by
  by_cases h : n = name <;> simp [SymTab.value, tableValue, h]

/-- SYM after a definition: it overrides the name's value and leaves the others alone (log entry 22). -/
theorem value_define (sym : SymTab) (name other : SymName) (v : Word) :
    SymTab.value (SymTab.define sym name v) other = if name = other then some v else SymTab.value sym other := by
  induction sym with
  | nil => exact value_cons [] name other v
  | cons entry sym ih =>
    obtain ⟨n, w⟩ := entry
    rw [SymTab.define]
    split
    case isTrue hn =>
      subst hn
      simp only [value_cons]
      split <;> rfl
    case isFalse hn =>
      rw [value_cons, value_cons, ih]
      split
      case isTrue hother => rw [if_neg fun h => hn (hother.trans h.symm)]
      case isFalse => rfl

/-- Pass 1 moves the counter as pass 2 does. -/
theorem pass1Line_ic (p : PassState) (st : Stmt) : (pass1Line p st).ic = nextIc p.ic st := by
  obtain ⟨text, label, shape⟩ := st
  cases shape <;> rfl

/-- The name that a line defines, if any, gets the line's own counter; all others keep what they had. -/
theorem value_pass1Line (p : PassState) (st : Stmt) (name : SymName) :
    SymTab.value (pass1Line p st).sym name =
      if Sys2Proof.Rules.defines name st then some p.ic else SymTab.value p.sym name := by
  obtain ⟨text, label, shape⟩ := st
  cases shape
  case org => rfl
  case memRef | operate | constant | reserve =>
    cases label with
    | none => rfl
    | some l => simp [pass1Line, Sys2Proof.Rules.defines, value_define]

theorem foldl_pass1Line_ic (p : PassState) (stmts : List Stmt) :
    (stmts.foldl pass1Line p).ic = Sys2Proof.Rules.counterAfter p.ic stmts := by
  induction stmts generalizing p with
  | nil => rfl
  | cons st rest ih => rw [List.foldl_cons, ih, pass1Line_ic, counterAfter_cons]

/-- Lines that do not define a name leave its value alone. -/
theorem value_foldl_pass1Line {name : SymName} {stmts : List Stmt}
    (h : ∀ st ∈ stmts, Sys2Proof.Rules.defines name st = false) (p : PassState) :
    SymTab.value (stmts.foldl pass1Line p).sym name = SymTab.value p.sym name := by
  induction stmts generalizing p with
  | nil => rfl
  | cons st rest ih =>
    obtain ⟨hst, hrest⟩ := List.forall_mem_cons.1 h
    rw [List.foldl_cons, ih hrest, value_pass1Line, hst, if_neg Bool.false_ne_true]

/-- Settles O59: the last line that defines a name gives it the counter that the lines before lead to, and the lines
after it leave that value alone. -/
theorem lastDefinitionWins : Obligations.LastDefinitionWins := by
  refine ⟨fun sym name other v => ⟨?_, fun hne => ?_⟩, fun before after st name hst hafter => ?_,
    fun stmts name h => value_foldl_pass1Line h _, fun stmts => foldl_pass1Line_ic _ stmts⟩
  · rw [value_define, if_pos rfl]
  · rw [value_define, if_neg hne.symm]
  · rw [pass1, List.foldl_append, List.foldl_cons, value_foldl_pass1Line hafter, value_pass1Line, if_pos hst,
      foldl_pass1Line_ic]

/-! ### The image (R221, R229) -/

theorem word_empty (a : Word) : Image.word { planted := [] } a = 0#12 := rfl

theorem word_plant_same (img : Image) (a v : Word) : (img.plant a v).word a = v := by
  simp [Image.word, Image.plant]

theorem word_plant_ne (img : Image) {a b : Word} (v : Word) (h : b ≠ a) : (img.plant a v).word b = img.word b := by
  simp [Image.word, Image.plant, read_write_ne _ v h]

/-! ### What pass 2 plants (R221) -/

/-- A line that pass 2 accepts plants a word exactly where the rules say that it plants. -/
theorem plantedFrom_cons {sym : SymTab} {ic : Word} {st : Stmt} {planted : Option Word}
    (h : plantedWord sym ic st = .ok planted) (rest : List Stmt) :
    Sys2Proof.Rules.plantedFrom ic (st :: rest) =
      planted.elim [] (fun _ => [ic]) ++ Sys2Proof.Rules.plantedFrom (nextIc ic st) rest := by
  obtain ⟨text, label, shape⟩ := st
  cases shape with
  | memRef base i z x =>
    obtain ⟨v, -, w, -, rfl⟩ := plantedWord_memRef_ok.1 h
    rfl
  | operate values | org n | constant n | reserve =>
    cases h
    rfl

/-- An address that no line plants keeps its word. -/
theorem word_of_not_planted {sym : SymTab} {ic a : Word} {img img' : Image} {stmts : List Stmt}
    (h : pass2 sym ic img stmts = .ok img') (ha : a ∉ Sys2Proof.Rules.plantedFrom ic stmts) :
    img'.word a = img.word a := by
  induction stmts generalizing ic img with
  | nil =>
    cases h
    rfl
  | cons st rest ih =>
    obtain ⟨planted, hplanted, hrest⟩ := asm_bind_ok.1 ((pass2_cons ..).symm.trans h)
    rw [plantedFrom_cons hplanted, List.mem_append, not_or] at ha
    obtain ⟨hown, hlater⟩ := ha
    rw [ih hrest hlater]
    cases planted with
    | none => rfl
    | some w => exact word_plant_ne img w fun e => hown (List.mem_singleton.2 e)

/-- Pass 2 over two lists of lines is pass 2 over the second from where the first leads. -/
theorem pass2_append (sym : SymTab) (ic : Word) (img : Image) (before after : List Stmt) :
    pass2 sym ic img (before ++ after) =
      pass2 sym ic img before >>= fun img' => pass2 sym (Sys2Proof.Rules.counterAfter ic before) img' after := by
  induction before generalizing ic img with
  | nil => rfl
  | cons st before ih => simp only [List.cons_append, pass2_cons, counterAfter_cons, bind_assoc, ih]

/-- The line at a counter that no later line plants: pass 2 accepts it, and the image holds what it plants. -/
theorem word_of_last_plant {sym : SymTab} {ic a : Word} {img img' : Image} {before after : List Stmt} {st : Stmt}
    (h : pass2 sym ic img (before ++ st :: after) = .ok img') (ha : a = Sys2Proof.Rules.counterAfter ic before)
    (hafter : a ∉ Sys2Proof.Rules.plantedFrom (nextIc a st) after) :
    ∃ planted, plantedWord sym a st = .ok planted ∧ ∀ w ∈ planted, img'.word a = w := by
  subst ha
  rw [pass2_append] at h
  obtain ⟨img1, -, h⟩ := asm_bind_ok.1 h
  obtain ⟨planted, hplanted, hrest⟩ := asm_bind_ok.1 ((pass2_cons ..).symm.trans h)
  refine ⟨planted, hplanted, fun w hw => ?_⟩
  rw [word_of_not_planted hrest hafter, Option.mem_def.1 hw]
  exact word_plant_same img1 _ w

/-- Settles O60: the image keeps the zero of every address that no line plants, and holds what the last line to plant an
address planted there. -/
theorem imageHoldsThePlantedWords : Obligations.ImageHoldsThePlantedWords := by
  refine ⟨fun sym stmts img a h ha => (word_of_not_planted h ha).trans (word_empty a),
    fun sym before after st img h => ?_, fun source img sym => assemble_ok.1⟩
  intro ic hafter
  rw [counterAfter_cons] at hafter
  obtain ⟨planted, hplanted, hword⟩ := word_of_last_plant h rfl hafter
  obtain ⟨text, label, shape⟩ := st
  cases shape with
  | memRef base i z x =>
    obtain ⟨v, hv, w, hw, rfl⟩ := plantedWord_memRef_ok.1 hplanted
    exact ⟨v, hv, hw.trans (congrArg _ (hword w rfl).symm)⟩
  | org n => trivial
  | operate values | constant n | reserve =>
    cases hplanted
    exact hword _ rfl

end Sys2Proof.Machine
end

section
/-! SUPPORT. What a step does about an item without a value (60_exceptions R274): which read it stops on, in the fatal
stop of the state it began in (R264, R267); which instructions raise the other two errors (R262, R263); and that no step
takes a value away. -/

namespace Sys2Proof.Machine

open Sys2Proof

/-! ### Reads that fail, and what fails with them -/

section
variable {s : State}

theorem readAc_of_none (h : s.ac = none) : s.readAc = .error .ac := by rw [State.readAc, h, readItem_none]

theorem readLink_of_none (h : s.link = none) : s.readLink = .error .link := by rw [State.readLink, h, readItem_none]

theorem readPf_of_none (h : s.pf = none) : s.readPf = .error .pf := by rw [State.readPf, h, readItem_none]

theorem bind_of_error {α β : Type} {x : Except Item α} {f : α → Except Item β} {item : Item} (h : x = .error item) :
    (x >>= f) = .error item := by
  rw [h, error_bind]

theorem bind_of_ok {α β : Type} {x : Except Item α} {f : α → Except Item β} {a : α} {r : Except Item β} (h : x = .ok a)
    (k : f a = r) : (x >>= f) = r := by
  rw [h, ok_bind, k]

theorem conclude_of_error {r : Except Item State} {item : Item} (h : r = .error item) :
    s.conclude r = .next (s.fatal (.unwrittenRead s.instrAddr item)) := by
  rw [h, conclude_error]

end

/-! ### The fetch (R264, R267) -/

section
variable {s : State}

/-- The machine has stopped already, and no handler has run. -/
theorem step_of_fetch_fatal {e : ErrorRecord} (hrun : s.running = true) (hfault : s.fault = none)
    (h : s.fetch = .error (s.fatal e)) : step s = .next (s.fatal e) :=
  (step_of_fetch_error hrun hfault h).trans (congrArg Host.Outcome.next endStepping_fatal)

theorem fetch_of_pc_none (hpc : s.pc = none) : s.fetch = .error (s.fatal (.unwrittenRead none .pc)) := by
  simp only [State.fetch, hpc]

theorem fetch_of_cell_none {a : Word} (hpc : s.pc = some a) (hcell : s.mem.read a = none) :
    s.fetch = .error (s.fatal (.unwrittenRead (some a) (.mem a))) := by
  simp only [State.fetch, hpc, hcell]

end

/-- Settles O40: the fetch fails before it writes IR and PC. -/
theorem fetchWithoutAValueStops : Obligations.FetchWithoutAValueStops := fun _ hrun hfault =>
  ⟨fun hpc => step_of_fetch_fatal hrun hfault (fetch_of_pc_none hpc),
    fun _ hpc hcell => step_of_fetch_fatal hrun hfault (fetch_of_cell_none hpc hcell)⟩

/-! ### The memory-reference instructions (R131 to R136) -/

/-- Settles O10: the resolver comes first in all six, then AC in AND, TAD and DCA; the operand is last in AND and TAD,
and ISZ reads it at once. -/
theorem memoryReferenceUnwrittenReads : Obligations.MemoryReferenceUnwrittenReads := by
  refine ⟨fun s i z off item hea ins hins => ?_, fun s i z off ea hea hac ins hins => ?_,
    fun s i z off ea x hea hx hcell ins hins => ?_, fun s i z off ea hea hcell => ?_⟩
  · simp only [Sys2Proof.Rules.memRefs, List.mem_cons, List.not_mem_nil, or_false] at hins
    rcases hins with rfl | rfl | rfl | rfl | rfl | rfl <;> exact conclude_of_error (bind_of_error hea)
  · have hread := readAc_of_none hac
    simp only [List.mem_cons, List.not_mem_nil, or_false] at hins
    rcases hins with rfl | rfl | rfl <;>
      exact conclude_of_error (bind_of_ok hea (bind_of_error hread))
  · have hread := memRead_of_read_none hcell
    simp only [List.mem_cons, List.not_mem_nil, or_false] at hins
    rcases hins with rfl | rfl <;>
      exact conclude_of_error (bind_of_ok hea (bind_of_ok (readAc_ok.2 hx) (bind_of_error hread)))
  · exact conclude_of_error (bind_of_ok hea (bind_of_error (memRead_of_read_none hcell)))

/-! ### The punch (R152 to R155) -/

section
variable {s : State}

@[simp] theorem punchClear_ac (clear : Bool) : (punchClear clear s).ac = s.ac := by cases clear <;> rfl

/-- Bit 2 sets PF whatever it was, so it needs AC alone. -/
theorem punchSend_of_ac {x : Word} (hac : s.ac = some x) :
    punchSend true s = .ok { s with pf := some true, out := if x != 0#12 then s.out ++ [x] else s.out } := by
  refine bind_ok.2 ⟨x, readAc_ok.2 hac, congrArg Except.ok ?_⟩
  by_cases hx : x = 0#12 <;> simp [hx, State.setPf, State.punch]

theorem punchSend_of_ac_none (hac : s.ac = none) : punchSend true s = .error .ac :=
  bind_of_error (readAc_of_none hac)

theorem punchSkip_of_pf_none (hpf : s.pf = none) : punchSkip true s = .error .pf :=
  bind_of_error (readPf_of_none hpf)

end

/-- Settles O15: bit 0 reads PF first, bit 1 reads nothing, and bit 2 reads AC last, which the other two leave as it
was. -/
theorem punchReadsOnlyWhatItsBitsUse : Obligations.PunchReadsOnlyWhatItsBitsUse := by
  refine ⟨fun s => ⟨rfl, rfl⟩, fun s clear x hac => conclude_of_ok ?_, fun s clear ready pc hpf hpc => conclude_of_ok ?_,
    fun s clear send hpf => conclude_of_error (bind_of_error (punchSkip_of_pf_none hpf)),
    fun s clear hac => conclude_of_error ?_, fun s clear ready pc hpf hpc hac => conclude_of_error ?_⟩
  · refine bind_of_ok rfl ((punchSend_of_ac (by simpa using hac)).trans ?_)
    cases clear <;> rfl
  · refine bind_of_ok (punchSkip_of_values true hpf hpc) ?_
    rw [punchClear_of_pf clear rfl]
    rfl
  · exact bind_of_ok rfl (punchSend_of_ac_none (by simpa using hac))
  · exact bind_of_ok (punchSkip_of_values true hpf hpc) (punchSend_of_ac_none (by simpa using hac))

/-! ### The other two errors (R262, R263) -/

/-- Settles O42: apart from the two instructions with an error of their own, an instruction sets FAULT only to the record
of an UnwrittenRead. -/
theorem errorsHaveTheirOwnInstructions : Obligations.ErrorsHaveTheirOwnInstructions := by
  intro i s t hfault h
  rcases exec_cases h with ⟨dev, ops, rfl, rfl⟩ | ⟨bits, rfl, rfl⟩ | ⟨hdevice, hneither, hend⟩
  · simp
  · simp
  · have hrecord : t.fault = none ∨ ∃ a item, t.fault = some (.unwrittenRead a item) := by
      rcases hend with ⟨item, rfl⟩ | eff
      · exact .inr ⟨_, item, rfl⟩
      · exact .inl (eff.fault.trans hfault)
    rcases hrecord with hrecord | ⟨a, item, hrecord⟩ <;> simp [hrecord, hdevice, hneither]

/-! ### No value is taken away -/

/-- Every item that has a value in `s` has one in `t`. -/
structure KeepsValues (s t : State) : Prop where
  ac : s.ac.isSome → t.ac.isSome
  link : s.link.isSome → t.link.isSome
  pc : s.pc.isSome → t.pc.isSome
  pf : s.pf.isSome → t.pf.isSome
  mem : ∀ b, (s.mem.read b).isSome → (t.mem.read b).isSome

section
variable {s t u : State}

theorem KeepsValues.trans (h : KeepsValues s t) (k : KeepsValues t u) : KeepsValues s u :=
  ⟨k.ac ∘ h.ac, k.link ∘ h.link, k.pc ∘ h.pc, k.pf ∘ h.pf, fun b => k.mem b ∘ h.mem b⟩

theorem keepsValues_fatal (s : State) (e : ErrorRecord) : KeepsValues s (s.fatal e) := ⟨id, id, id, id, fun _ => id⟩

theorem keepsValues_emitExecuted (s : State) (a : Word) : KeepsValues s (s.emitExecuted a) := by
  rcases emitExecuted_cases s a with ⟨-, h⟩ | ⟨-, h⟩ <;> rw [h] <;> exact ⟨id, id, id, id, fun _ => id⟩

theorem keepsValues_endStepping (s : State) : KeepsValues s s.endStepping := by
  rw [endStepping_same]
  exact ⟨id, id, id, id, fun _ => id⟩

/-- A store gives its cell a value and leaves the other cells as they were. -/
theorem Effect.keepsValues (h : Effect s t) : KeepsValues s t := by
  refine ⟨h.ac, h.link, h.pc, h.pf, fun b hb => ?_⟩
  rcases h.mem with e | ⟨a, v, e⟩ <;> rw [e]
  · exact hb
  · rw [read_write]
    split
    · rfl
    · exact hb

theorem keepsValues_exec {i : Instr} (h : exec i s = .next t) : KeepsValues s t := by
  rcases exec_effect h with ⟨e, rfl⟩ | eff
  · exact keepsValues_fatal s e
  · exact eff.keepsValues

/-- The fetch gives PC a new value. -/
theorem keepsValues_fetched (s : State) (a w : Word) : KeepsValues s (s.fetched a w) :=
  ⟨id, id, fun _ => rfl, id, fun _ => id⟩

end

/-- Settles O46: every part of a step keeps the values there are: the fetch, the handler, the event and the end of a
stepped run. -/
theorem valuesAreNeverLost : Obligations.ValuesAreNeverLost := by
  intro s v h
  have hkeeps : KeepsValues s v := by
    obtain ⟨-, -, ⟨t, ht, rfl⟩ | ⟨a, t, u, ht, hu, rfl⟩⟩ := step_next h
    · refine KeepsValues.trans ?_ (keepsValues_endStepping t)
      rcases fetch_error ht with ⟨-, rfl⟩ | ⟨_, -, -, rfl⟩ <;> exact keepsValues_fatal s _
    · obtain ⟨w, -, -, rfl⟩ := fetch_ok.1 ht
      exact (keepsValues_fetched s a w).trans <| (keepsValues_exec hu).trans <|
        (keepsValues_emitExecuted u a).trans (keepsValues_endStepping _)
  exact ⟨hkeeps.ac, hkeeps.link, hkeeps.pc, hkeeps.pf, hkeeps.mem⟩

end Sys2Proof.Machine
end

section
/-! SUPPORT. Which of AC and L a Group-1 word uses before it has written it (44_operate_group1 R171 to R184), and what it
does where another item has no value (60_exceptions R274). -/

namespace Sys2Proof.Machine

open Sys2Proof Sys2Proof.Rules

/-! ### AC and L, written or as they were -/

/-- AC and L hold their part of the pair `p` where `ac` and `link` say that they have been written; otherwise they are as
in `s`, with a value or not. -/
def State.written (s : State) (ac link : Bool) (p : Word × Bool) : State :=
  { s with ac := if ac then some p.1 else s.ac, link := if link then some p.2 else s.link }

section
variable {s : State} {ac link : Bool} {p : Word × Bool}

theorem written_ac (h : ac = false → s.ac = some p.1) : (s.written ac link p).ac = some p.1 := by
  cases ac with
  | false => exact h rfl
  | true => rfl

theorem written_link (h : link = false → s.link = some p.2) : (s.written ac link p).link = some p.2 := by
  cases link with
  | false => exact h rfl
  | true => rfl

/-- With a value in both, it makes no difference which of them was written. -/
theorem written_eq_setAcLink (hac : ac = false → s.ac = some p.1) (hlink : link = false → s.link = some p.2) :
    s.written ac link p = s.setAcLink p := by
  have hac' := written_ac (link := link) hac
  have hlink' := written_link (ac := ac) hlink
  exact (setAcLink_self hac' hlink').symm

end

/-! ### Sequences 1 to 3, where each item that they use has a value (R172 to R176) -/

section
variable {s : State} {ac link : Bool} {x : Word} {l : Bool}

theorem microIf_microCla_written (c : Bool) :
    microIf c microCla (s.written ac link (x, l)) = .ok (s.written (c || ac) link (if c then 0#12 else x, l)) := by
  cases c <;> rfl

theorem microIf_microCll_written (c : Bool) :
    microIf c microCll (s.written ac link (x, l)) = .ok (s.written ac (c || link) (x, if c then false else l)) := by
  cases c <;> rfl

theorem microIf_microCma_written {c : Bool} (h : c = true → ac = false → s.ac = some x) :
    microIf c microCma (s.written ac link (x, l)) = .ok (s.written (c || ac) link (if c then ~~~x else x, l)) := by
  cases c with
  | false => rfl
  | true => exact microCma_of_ac (written_ac (h rfl))

theorem microIf_microCml_written {c : Bool} (h : c = true → link = false → s.link = some l) :
    microIf c microCml (s.written ac link (x, l)) = .ok (s.written ac (c || link) (x, if c then !l else l)) := by
  cases c with
  | false => rfl
  | true => exact microCml_of_link (written_link (h rfl))

/-- IAC writes L without having read it. -/
theorem microIf_microIac_written {c : Bool} (h : c = true → ac = false → s.ac = some x) :
    microIf c microIac (s.written ac link (x, l)) = .ok (s.written (c || ac) (c || link)
      (if c then (x + 1#12, decide (x = 0o7777#12)) else (x, l))) := by
  cases c with
  | false => rfl
  | true => exact microIac_of_ac (written_ac (h rfl))

end

section
variable {g : Group1} {s : State} {x : Word} {l : Bool}

/-- Sequence 1 reads nothing. -/
theorem group1Sequence_clears (g : Group1) (s : State) (x : Word) (l : Bool) : group1Sequence g s = (do
    let t ← microIf g.cma microCma (s.written g.cla g.cll (if g.cla then 0#12 else x, if g.cll then false else l))
    let u ← microIf g.cml microCml t
    let v ← microIf g.iac microIac u
    microRotate g v) := by
  show group1Sequence g (s.written false false (x, l)) = _
  simp only [group1Sequence, microIf_microCla_written, microIf_microCll_written, ok_bind, Bool.or_false]

/-- Sequences 1 to 3 of a word whose complements and increment find the values they use. -/
theorem group1Sequence_written (hac : g.cma = true ∨ g.iac = true → g.cla = false → s.ac = some x)
    (hlink : g.cml = true → g.cll = false → s.link = some l) :
    group1Sequence g s = microRotate g (s.written (g.iac || (g.cma || g.cla)) (g.iac || (g.cml || g.cll))
      (sequences123 g x l)) := by
  rw [group1Sequence_clears g s x l, microIf_microCma_written ?cma, ok_bind, microIf_microCml_written ?cml, ok_bind,
    microIf_microIac_written ?iac, ok_bind]
  · rfl
  case cma =>
    intro hcma hcla
    simpa [hcla] using hac (.inl hcma) hcla
  case cml =>
    intro hcml hcll
    simpa [hcll] using hlink hcml hcll
  case iac =>
    intro hiac h
    obtain ⟨hcma, hcla⟩ := Bool.or_eq_false_iff.1 h
    simpa [hcma, hcla] using hac (.inr hiac) hcla

end

/-! ### Sequence 4 (R177 to R183) -/

section
variable {g : Group1} {s : State} {x : Word} {l : Bool} {item : Item}

theorem microRepeat_of_error {op : State → Except Item State} (h : op s = .error item) (two : Bool) :
    microRepeat two op s = .error item := by
  cases two with
  | false => exact h
  | true => exact bind_of_error h

theorem microRotate_of_error (hrotate : g.rar = true ∨ g.ral = true) (hrar : microRar s = .error item)
    (hral : microRal s = .error item) (hdraw : microDraw s = .error item) : microRotate g s = .error item := by
  unfold microRotate
  split
  case h_1 hnorar hnoral => simp [hnorar, hnoral] at hrotate
  case h_2 => exact microRepeat_of_error hrar g.two
  case h_3 => exact microRepeat_of_error hral g.two
  case h_4 => exact hdraw

/-- Every rotate reads both items, the undefined one too (log entry 14), and stops on the one that is missing. -/
theorem microRotate_of_ac_none (hrotate : g.rar = true ∨ g.ral = true) (hac : s.ac = none) (hlink : s.link = some l) :
    microRotate g s = .error .ac := by
  have hread := readAc_of_none hac
  exact microRotate_of_error hrotate (bind_of_ok (readLink_ok.2 hlink) (bind_of_error hread)) (bind_of_error hread)
    (bind_of_error hread)

theorem microRotate_of_link_none (hrotate : g.rar = true ∨ g.ral = true) (hac : s.ac = some x) (hlink : s.link = none) :
    microRotate g s = .error .link := by
  have hread := readLink_of_none hlink
  have hafter {f : Word → Bool → Except Item State} : (s.readAc >>= fun x => s.readLink >>= f x) = .error .link :=
    bind_of_ok (readAc_ok.2 hac) (bind_of_error hread)
  exact microRotate_of_error hrotate (bind_of_error hread) hafter hafter

/-- With a value in both items sequence 4 completes, with whatever the undefined rotate draws. -/
theorem microRotate_setAcLink_answers (g : Group1) (s : State) (p : Word × Bool) :
    ∃ t, microRotate g (s.setAcLink p) = .ok t := by
  cases hboth : g.rar && g.ral with
  | false => exact ⟨_, microRotate_setAcLink hboth p⟩
  | true =>
    obtain ⟨hrar, hral⟩ := Bool.and_eq_true_iff.1 hboth
    simp only [microRotate, hrar, hral]
    exact ⟨_, rfl⟩

end

/-! ### The whole word -/

section
variable {g : Group1} {s : State} {x : Word} {l : Bool}

/-- A word without both rotates completes where the items it needs have a value. -/
theorem group1Sequence_of_needed (hone : (g.rar && g.ral) = false) (hac : needsAc g = true → s.ac = some x)
    (hlink : needsLink g = true → s.link = some l) :
    group1Sequence g s =
      .ok (s.written (writesAc g) (writesLink g) (sequence4 g (sequences123 g x l))) := by
  have hac' : g.cma = true ∨ g.iac = true → g.cla = false → s.ac = some x := fun huses hcla =>
    hac (by rcases huses with h | h <;> simp [needsAc, hcla, h])
  have hlink' : g.cml = true → g.cll = false → s.link = some l := fun hcml hcll => hlink (by simp [needsLink, hcll, hcml])
  rw [group1Sequence_written hac' hlink']
  by_cases hrotate : g.rar = true ∨ g.ral = true
  · have hwrites : writesAc g = true ∧ writesLink g = true := by
      rcases hrotate with h | h <;> simp [writesAc, writesLink, h]
    rw [written_eq_setAcLink ?ac ?link, microRotate_setAcLink hone, hwrites.1, hwrites.2]
    · rfl
    case ac =>
      intro h
      simp only [Bool.or_eq_false_iff] at h
      obtain ⟨hiac, hcma, hcla⟩ := h
      simpa [sequences123, hiac, hcma, hcla] using hac (by rcases hrotate with h | h <;> simp [needsAc, hcla, h])
    case link =>
      intro h
      simp only [Bool.or_eq_false_iff] at h
      obtain ⟨hiac, hcml, hcll⟩ := h
      simpa [sequences123, hiac, hcml, hcll] using
        hlink (by rcases hrotate with h | h <;> simp [needsLink, hcll, hiac, h])
  · obtain ⟨hrar, hral⟩ : g.rar = false ∧ g.ral = false := by simpa using hrotate
    rw [microRotate_of_no_rotate hrar hral]
    simp [writesAc, writesLink, sequence4, hrar, hral, Bool.or_comm, Bool.or_left_comm]

/-- A word that needs AC stops on it where that alone is missing: at the first of CMA, IAC and the rotates that it has. -/
theorem group1Sequence_of_ac_none (hneeds : needsAc g = true) (hac : s.ac = none)
    (hlink : needsLink g = true → s.link = some l) : group1Sequence g s = .error .ac := by
  simp only [needsAc, Bool.and_eq_true, Bool.not_eq_true', Bool.or_eq_true] at hneeds
  obtain ⟨hcla, huses⟩ := hneeds
  rw [group1Sequence_clears g s 0#12 l, hcla]
  have hread (link : Bool) (p : Word × Bool) : (s.written false link p).readAc = .error .ac := readAc_of_none hac
  cases hcma : g.cma with
  | true => exact bind_of_error (bind_of_error (hread _ _))
  | false =>
    have hcml (hcml : g.cml = true) (hcll : g.cll = false) : s.link = some (if g.cll then false else l) := by
      simpa [hcll] using hlink (by simp [needsLink, hcll, hcml])
    refine bind_of_ok rfl (bind_of_ok (microIf_microCml_written hcml) ?_)
    cases hiac : g.iac with
    | true => exact bind_of_error (bind_of_error (hread _ _))
    | false =>
      have hrotate : g.rar = true ∨ g.ral = true := by simpa [hcma, hiac] using huses
      refine bind_of_ok rfl (microRotate_of_ac_none hrotate hac (written_link fun h => ?_))
      obtain ⟨hcml, hcll⟩ := Bool.or_eq_false_iff.1 h
      have hneeds : needsLink g = true := by
        rcases hrotate with h | h <;> simp [needsLink, hcll, hiac, h]
      simpa [hcml, hcll] using hlink hneeds

/-- A word that needs L stops on it where that alone is missing: at CML, or at a rotate that no IAC goes before. -/
theorem group1Sequence_of_link_none (hneeds : needsLink g = true) (hlink : s.link = none)
    (hac : needsAc g = true → s.ac = some x) : group1Sequence g s = .error .link := by
  simp only [needsLink, Bool.and_eq_true, Bool.not_eq_true', Bool.or_eq_true] at hneeds
  obtain ⟨hcll, huses⟩ := hneeds
  rw [group1Sequence_clears g s x false, hcll]
  have hcma (hcma : g.cma = true) (hcla : g.cla = false) : s.ac = some (if g.cla then 0#12 else x) := by
    simpa [hcla] using hac (by simp [needsAc, hcla, hcma])
  refine bind_of_ok (microIf_microCma_written hcma) ?_
  cases hcml : g.cml with
  | true => exact bind_of_error (bind_of_error (readLink_of_none hlink))
  | false =>
    obtain ⟨hiac, hrotate⟩ : g.iac = false ∧ (g.rar = true ∨ g.ral = true) := by simpa [hcml] using huses
    rw [hiac]
    refine bind_of_ok rfl (bind_of_ok rfl (microRotate_of_link_none hrotate (written_ac fun h => ?_) hlink))
    obtain ⟨hcma, hcla⟩ := Bool.or_eq_false_iff.1 h
    have hneeds : needsAc g = true := by
      rcases hrotate with h | h <;> simp [needsAc, hcla, h]
    simpa [hcma, hcla] using hac hneeds

end

section
variable {g : Group1} {s : State} {ins : Instr}

/-- An item that has a value where a condition holds has one that can be named before the condition is known. -/
theorem exists_value_of_isSome {α : Type} [Inhabited α] {c : Prop} {o : Option α} (h : c → o.isSome) :
    ∃ v, c → o = some v := by
  cases o with
  | none => exact ⟨default, fun hc => absurd (h hc) nofun⟩
  | some v => exact ⟨v, fun _ => rfl⟩

/-- Every Group-1 instruction that needs AC, named or not. -/
theorem exec_group1_of_ac_none (hins : ins ∈ group1Instrs g)
    (hneeds : needsAc (group1Bits ins) = true) (hac : s.ac = none)
    (hlink : needsLink (group1Bits ins) = true → s.link.isSome) :
    exec ins s = .next (s.fatal (.unwrittenRead s.instrAddr .ac)) := by
  obtain ⟨l, hl⟩ := exists_value_of_isSome hlink
  rw [exec_eq_exec_group1Bits hins]
  exact conclude_of_error (group1Sequence_of_ac_none hneeds hac hl)

/-- Every Group-1 instruction that needs L, named or not. -/
theorem exec_group1_of_link_none (hins : ins ∈ group1Instrs g)
    (hneeds : needsLink (group1Bits ins) = true) (hlink : s.link = none)
    (hac : needsAc (group1Bits ins) = true → s.ac.isSome) :
    exec ins s = .next (s.fatal (.unwrittenRead s.instrAddr .link)) := by
  obtain ⟨x, hx⟩ := exists_value_of_isSome hac
  rw [exec_eq_exec_group1Bits hins]
  exact conclude_of_error (group1Sequence_of_link_none hneeds hlink hx)

/-- A word with CLA and CLL forgets what AC and L were, and completes. -/
theorem group1Sequence_of_clears (hcla : g.cla = true) (hcll : g.cll = true) (s : State) :
    group1Sequence g s = group1Sequence g (s.setAcLink (0#12, false)) ∧ ∃ t, group1Sequence g s = .ok t := by
  have hforget : group1Sequence g s = group1Sequence g (s.setAcLink (0#12, false)) := by
    rw [group1Sequence_clears g s 0#12 false, group1Sequence_clears g (s.setAcLink (0#12, false)) 0#12 false, hcla, hcll]
    rfl
  refine ⟨hforget, ?_⟩
  rw [hforget, group1Sequence_of_values rfl rfl]
  exact microRotate_setAcLink_answers g _ _

end

/-- Settles O25: sequence 1 decides what the later ones find, IAC writes L before a rotate reads it, and a named word
stands for its own bits. -/
theorem group1ReadsOnlyWhatItUses : Obligations.Group1ReadsOnlyWhatItUses := by
  have hrotates : ∀ j ∈ [Instr.rar, .ral, .rtr, .rtl], j ∈ group1Instrs {} ∧
      needsAc (group1Bits j) = true ∧ needsLink (group1Bits j) = true := by decide
  refine ⟨fun s g hcla hcll => ?_,
    fun s g x l hone hac hlink => conclude_of_ok (group1Sequence_of_needed hone hac hlink),
    fun s g hneeds hac hlink => exec_group1_of_ac_none (g := g) List.mem_cons_self hneeds hac hlink,
    fun s g hneeds hlink hac => exec_group1_of_link_none (g := g) List.mem_cons_self hneeds hlink hac,
    fun s hac ins hins => ?_, fun s hlink => ?_, fun s hac hlink ins hins => ?_, fun s hac hlink ins hins => ?_⟩
  · obtain ⟨hforget, t, ht⟩ := group1Sequence_of_clears hcla hcll s
    exact (conclude_of_ok ht).trans (conclude_of_ok (hforget.symm.trans ht)).symm
  · have hbits : ∀ j ∈ [Instr.cma, .iac], j ∈ group1Instrs {} ∧
        needsAc (group1Bits j) = true ∧ needsLink (group1Bits j) = false := by decide
    obtain ⟨hmem, hneeds, hnot⟩ := hbits ins hins
    exact exec_group1_of_ac_none hmem hneeds hac (by simp [hnot])
  · exact exec_group1_of_link_none (g := {}) (by decide) rfl hlink nofun
  · obtain ⟨hmem, hneeds, -⟩ := hrotates ins hins
    exact exec_group1_of_ac_none hmem hneeds hac fun _ => hlink
  · obtain ⟨hmem, -, hneeds⟩ := hrotates ins hins
    exact exec_group1_of_link_none hmem hneeds hlink fun _ => hac

end Sys2Proof.Machine
end

section
/-! SUPPORT. Which of AC and L a Group-2 word tests (45_operate_group2 R190 to R193), and what it does where another item
has no value (60_exceptions R274). -/

namespace Sys2Proof.Machine

open Sys2Proof Sys2Proof.Rules

/-! ### The skip test (R192, R193) -/

section
variable {g : Group2} {s t : State} {x : Word} {l : Bool}

theorem condition_congr {enabled : Bool} {test test' : Except Item Bool} (h : enabled = true → test = test')
    (idle : Bool) : condition enabled test idle = condition enabled test' idle := by
  cases enabled with
  | false => rfl
  | true => exact h rfl

/-- The test depends on AC only through the sign and zero conditions, and on L only through the link condition. -/
theorem skipTest_congr (hac : (g.sign || g.zero) = true → s.ac = t.ac) (hlink : g.link = true → s.link = t.link) :
    s.skipTest g = t.skipTest g := by
  have hreadLink (h : g.link = true) : s.readLink = t.readLink := by rw [State.readLink, State.readLink, hlink h]
  have hreadAc (h : (g.sign || g.zero) = true) : s.readAc = t.readAc := by rw [State.readAc, State.readAc, hac h]
  have onAc {c : Bool} (h : c = true → (g.sign || g.zero) = true) (f : Word → Bool) (idle : Bool) :
      condition c (s.readAc >>= fun x => pure (f x)) idle = condition c (t.readAc >>= fun x => pure (f x)) idle :=
    condition_congr (fun hc => by rw [hreadAc (h hc)]) idle
  have hsign := onAc (c := g.sign) fun h => by simp [h]
  have hzero := onAc (c := g.zero) fun h => by simp [h]
  have hset : condition g.link s.readLink false = condition g.link t.readLink false := condition_congr hreadLink false
  have hclear : condition g.link (s.readLink >>= fun b => pure (!b)) true =
      condition g.link (t.readLink >>= fun b => pure (!b)) true :=
    condition_congr (fun h => by rw [hreadLink h]) true
  simp only [State.skipTest, State.orFamilySkip, State.andFamilySkip, hsign, hzero, hset, hclear]

theorem skipTest_of_link (hsign : g.sign = false) (hzero : g.zero = false) (hlink : g.link = true → s.link = some l) :
    s.skipTest g = .ok (skips g 0#12 l) := by
  have hsame : s.skipTest g = (s.setAcLink (0#12, l)).skipTest g :=
    skipTest_congr (fun h => by simp [hsign, hzero] at h) hlink
  rw [hsame, skipTest_of_values g rfl rfl]

theorem skipTest_of_ac_none (htests : (g.sign || g.zero) = true) (hac : s.ac = none) : s.skipTest g = .error .ac := by
  have hread {f : Word → Bool} : (s.readAc >>= fun x => pure (f x)) = .error .ac := bind_of_error (readAc_of_none hac)
  unfold State.skipTest State.orFamilySkip State.andFamilySkip
  cases hsign : g.sign with
  | true => split <;> exact bind_of_error hread
  | false =>
    have hzero : g.zero = true := by simpa [hsign] using htests
    rw [hzero]
    split <;> exact bind_of_ok rfl (bind_of_error hread)

theorem skipTest_of_link_none (hlink : g.link = true) (hnone : s.link = none)
    (hac : (g.sign || g.zero) = true → s.ac = some x) : s.skipTest g = .error .link := by
  have hsame : s.skipTest g = (s.setAc x).skipTest g := skipTest_congr hac fun _ => rfl
  have hread : (s.setAc x).readLink = .error .link := readLink_of_none hnone
  have hvalue : (s.setAc x).ac = some x := rfl
  rw [hsame]
  simp only [State.skipTest, State.orFamilySkip, State.andFamilySkip, hread, hlink, condition_true,
    readAc_bind_pure hvalue, condition_ok_false, condition_ok_true, ok_bind, error_bind, ite_self]

end

/-! ### Operations that neither read nor write L -/

/-- L is `l`, with a value or without, and nothing else has changed. -/
def State.withLink (l : Option Bool) (s : State) : State := { s with link := l }

/-- `op` does the same whatever L is, and leaves it as it is. -/
def LinkFree (op : State → Except Item State) : Prop :=
  ∀ (s : State) (l : Option Bool), op (s.withLink l) = (op s).map (State.withLink l)

section
variable {op next : State → Except Item State}

theorem LinkFree.bind (hop : LinkFree op) (hnext : LinkFree next) : LinkFree fun s => op s >>= next := by
  intro s l
  simp only [hop s l]
  cases op s with
  | error item => rfl
  | ok t => exact hnext t l

/-- A read of PC, and what follows for its value. -/
theorem linkFree_readPc {update : Word → State → State}
    (h : ∀ x s l, update x (s.withLink l) = (update x s).withLink l) :
    LinkFree fun s => s.readPc >>= fun x => pure (update x s) := by
  intro s l
  have hread : (s.withLink l).readPc = s.readPc := rfl
  simp only [hread]
  cases s.readPc with
  | error item => rfl
  | ok x => exact congrArg Except.ok (h x s l)

theorem linkFree_skipIf (c : Bool) : LinkFree (skipIf c) := by
  cases c with
  | false => exact fun _ _ => rfl
  | true => exact linkFree_readPc fun _ _ _ => rfl

theorem linkFree_clearIf (c : Bool) : LinkFree fun s => .ok (clearIf c s) := by
  cases c <;> exact fun _ _ => rfl

theorem linkFree_haltIf (c : Bool) : LinkFree fun s => if c then microHlt s else pure s := by
  cases c with
  | false => exact fun _ _ => rfl
  | true => exact linkFree_readPc fun _ _ _ => rfl

end

/-- A word without the link condition: the test is the same, and what follows it has nothing to do with L. -/
theorem linkFree_group2Sequence {g : Group2} (hlink : g.link = false) : LinkFree (group2Sequence g) := by
  intro s l
  have htest : (s.withLink l).skipTest g = s.skipTest g := skipTest_congr (fun _ => rfl) (by simp [hlink])
  have htail (c : Bool) := (linkFree_skipIf c).bind ((linkFree_clearIf g.cla).bind (linkFree_haltIf g.hlt))
  simp only [group2Sequence, htest]
  cases s.skipTest g with
  | error item => rfl
  | ok c => exact htail c s l

theorem LinkFree.conclude {op : State → Except Item State} (h : LinkFree op) (s : State) (l : Option Bool) :
    (s.withLink l).conclude (op (s.withLink l)) = outcomeMap (State.withLink l) (s.conclude (op s)) := by
  rw [h s l]
  cases op s <;> rfl

/-! ### The whole word -/

section
variable {g : Group2} {s : State} {ins : Instr}

theorem clearIf_eq (c : Bool) (s : State) : clearIf c s = { s with ac := if c then some 0#12 else s.ac } := by
  cases c <;> rfl

/-- Every Group-2 instruction that tests AC, named or not. -/
theorem exec_group2_of_ac_none (hins : ins ∈ group2Instrs g)
    (htests : ((group2Bits ins).sign || (group2Bits ins).zero) = true) (hac : s.ac = none) :
    exec ins s = .next (s.fatal (.unwrittenRead s.instrAddr .ac)) := by
  rw [exec_eq_exec_group2Bits hins]
  exact conclude_of_error (bind_of_error (skipTest_of_ac_none htests hac))

/-- Every Group-2 instruction that tests L, named or not. -/
theorem exec_group2_of_link_none (hins : ins ∈ group2Instrs g) (hlink : (group2Bits ins).link = true)
    (hnone : s.link = none) (hac : ((group2Bits ins).sign || (group2Bits ins).zero) = true → s.ac.isSome) :
    exec ins s = .next (s.fatal (.unwrittenRead s.instrAddr .link)) := by
  obtain ⟨x, hx⟩ := exists_value_of_isSome hac
  rw [exec_eq_exec_group2Bits hins]
  exact conclude_of_error (bind_of_error (skipTest_of_link_none hlink hnone hx))

end

/-- Settles O34: the test alone reads AC and L, in this order and only for the conditions enabled, and a named word stands
for its own bits. -/
theorem group2ReadsOnlyWhatItUses : Obligations.Group2ReadsOnlyWhatItUses := by
  refine ⟨fun s g l hlink => (linkFree_group2Sequence hlink).conclude s l,
    fun s g pc l hsign hzero hpc hlink => conclude_of_ok ?_,
    fun s g htests hac _ => exec_group2_of_ac_none (g := g) List.mem_cons_self htests hac,
    fun s g hlink hnone hac => exec_group2_of_link_none (g := g) List.mem_cons_self hlink hnone hac,
    fun s hac ins hins => ?_, fun s hnone ins hins => ?_⟩
  · refine bind_of_ok (skipTest_of_link hsign hzero hlink) (bind_of_ok (skipIf_of_pc _ hpc) ?_)
    rw [clearIf_eq]
    exact haltIf_of_pc g.hlt rfl
  · have hbits : ∀ j ∈ [Instr.sma, .sza, .spa, .sna], j ∈ group2Instrs {} ∧
        ((group2Bits j).sign || (group2Bits j).zero) = true := by decide
    obtain ⟨hmem, htests⟩ := hbits ins hins
    exact exec_group2_of_ac_none hmem htests hac
  · have hbits : ∀ j ∈ [Instr.snl, .szl], j ∈ group2Instrs {} ∧ (group2Bits j).link = true ∧
        ((group2Bits j).sign || (group2Bits j).zero) = false := by decide
    obtain ⟨hmem, hlink, hnot⟩ := hbits ins hins
    exact exec_group2_of_link_none hmem hlink hnone (by simp [hnot])

end Sys2Proof.Machine
end

section
/-! SUPPORT. The machine as the host builds it (70_reset_and_hazards R280): its memory is what the given cells leave when
they are written in order. -/

namespace Sys2Proof.Machine

open Sys2Proof

/-! ### The cells of initialState -/

/-- The memory after the cells of an initialState are written in order, each reduced to a word. -/
def writeCells (m : Memory) (cells : List (Word × Nat)) : Memory :=
  cells.foldl (fun m c => m.write c.1 (maskWord c.2)) m

theorem launch_mem (init : InitialState) : (launch init).mem = writeCells [] init.mem := rfl

theorem writeCells_cons (m : Memory) (c : Word × Nat) (cells : List (Word × Nat)) :
    writeCells m (c :: cells) = writeCells (m.write c.1 (maskWord c.2)) cells := rfl

theorem writeCells_wf {m : Memory} (h : m.wf) (cells : List (Word × Nat)) : (writeCells m cells).wf := by
  induction cells generalizing m with
  | nil => exact h
  | cons c cells ih => exact ih (write_wf h _ _)

/-- A cell that is not given keeps what it held. -/
theorem read_writeCells_of_notMem {cells : List (Word × Nat)} {a : Word} (h : a ∉ cells.map Prod.fst) (m : Memory) :
    (writeCells m cells).read a = m.read a := by
  induction cells generalizing m with
  | nil => rfl
  | cons c cells ih =>
    obtain ⟨hne, hrest⟩ := not_or.1 (mt List.mem_cons.2 h)
    rw [writeCells_cons, ih hrest, read_write_ne m _ hne]

/-- A cell that is given once holds the given value: it is written, and no later cell writes over it. -/
theorem read_writeCells_of_mem {cells : List (Word × Nat)} {a : Word} {v : Nat} (hnodup : (cells.map Prod.fst).Nodup)
    (hmem : (a, v) ∈ cells) (m : Memory) : (writeCells m cells).read a = some (maskWord v) := by
  induction cells generalizing m with
  | nil => cases hmem
  | cons c cells ih =>
    obtain ⟨hfirst, hrest⟩ := List.nodup_cons.1 hnodup
    rw [writeCells_cons]
    rcases List.mem_cons.1 hmem with rfl | hmem
    · rw [read_writeCells_of_notMem hfirst, read_write_same]
    · exact ih hrest hmem _

/-! ### Values reduced to their width -/

theorem toNat_maskWord (w : Nat) : (maskWord w).toNat = w % 4096 := BitVec.toNat_ofNat w 12

theorem toNat_mod_two_beq_one (n : Nat) : (n % 2 == 1).toNat = n % 2 := by
  rcases Nat.mod_two_eq_zero_or_one n with h | h <;> rw [h] <;> rfl

theorem map_toNat_maskWord {o : Option Nat} {v : Nat} (h : o = some v) :
    (o.map maskWord).map BitVec.toNat = some (v % 4096) := by
  rw [h]
  exact congrArg some (toNat_maskWord v)

theorem map_toNat_mod_two_beq_one {o : Option Nat} {v : Nat} (h : o = some v) :
    (o.map (· % 2 == 1)).map Bool.toNat = some (v % 2) := by
  rw [h]
  exact congrArg some (toNat_mod_two_beq_one v)

/-- Settles O50: the registers and flags are the given values reduced to their width, and memory is what the given cells
write into a memory that lists none. -/
theorem newMachineIsAsLaunched : Obligations.NewMachineIsAsLaunched := by
  intro init
  refine ⟨rfl, rfl, rfl, rfl, fun _ => map_toNat_maskWord, Option.map_eq_none_iff.2, fun _ => map_toNat_maskWord,
    Option.map_eq_none_iff.2, fun _ => map_toNat_mod_two_beq_one, Option.map_eq_none_iff.2,
    fun _ => map_toNat_mod_two_beq_one, Option.map_eq_none_iff.2, fun a ha => ?_, fun a v hnodup hmem => ?_, ?_⟩
  · rw [launch_mem]
    exact read_writeCells_of_notMem ha []
  · rw [launch_mem, read_writeCells_of_mem hnodup hmem]
    exact congrArg some (toNat_maskWord v)
  · rw [launch_mem]
    exact writeCells_wf (by decide) init.mem

end Sys2Proof.Machine
end

section
/-! SUPPORT. The assembler's page and the resolver's page are one (70_reset_and_hazards R285): the fields that the
assembler plants for a target lead the resolver back to it. -/

namespace Sys2Proof.Machine

open Sys2Proof

/-! ### A target from its page and its low bits (R49) -/

theorem setWidth_low_bits (v : Word) : (v.extractLsb' 0 7).setWidth 12 = v &&& 0o177#12 := by
  refine BitVec.eq_of_toNat_eq ?_
  rw [toNat_and_offset_mask, BitVec.toNat_setWidth, BitVec.extractLsb'_toNat, Nat.shiftRight_zero]
  omega

/-- The two masks cover the word. -/
theorem pageBase_or_low_bits (v : Word) : pageBase v ||| (v.extractLsb' 0 7).setWidth 12 = v := by
  rw [setWidth_low_bits, pageBase, ← BitVec.and_or_distrib_left]
  exact BitVec.and_allOnes

/-! ### The resolver on the assembler's fields (R222, R125) -/

/-- The planted Z says that the target is off the page of `ic`: without it the page of `ic` is the target's own, and with
it the target is on page zero. -/
theorem baseAddress_of_target {s : State} {v ic : Word} (hpc : s.pc = some (ic + 1#12))
    (hreach : v.toNat / 128 = ic.toNat / 128 ∨ v.toNat < 0o200) :
    s.baseAddress (v.toNat / 128 != ic.toNat / 128) (v.extractLsb' 0 7) = .ok v := by
  by_cases hpage : v.toNat / 128 = ic.toNat / 128
  · have hbase : pageBase ic = pageBase v := (page_bits_eq_iff.2 hpage).symm
    rw [bne_eq_false_iff_eq.2 hpage, baseAddress_currentPage hpc, hbase, pageBase_or_low_bits]
  · have hlow : v.toNat < 0o200 := hreach.resolve_left hpage
    rw [bne_iff_ne.2 hpage, baseAddress_pageZero, setWidth_low_bits, and_offset_mask_of_lt hlow]

theorem resolve_eq_of_baseAddress {s : State} {z : Bool} {off : Offset} {b : Word} (h : s.baseAddress z off = .ok b)
    (i : Bool) : s.resolve i z off = if i then s.memRead b else .ok b := by
  rw [State.resolve, h, ok_bind]
  rfl

/-- A word that the assembler answers for a target without Z: the target can be reached from `ic`, and the word is the
encoder's with the line's I, the planted Z and the target's low bits. -/
theorem memRefWord_encode_ok {op : BitVec 3} {i : Bool} {v ic w : Word} {text : Line}
    (h : memRefWord (encodeMemRef op false false 0#7) i false v ic text = .ok w) :
    (v.toNat / 128 = ic.toNat / 128 ∨ v.toNat < 0o200) ∧
      w = encodeMemRef op i (v.toNat / 128 != ic.toNat / 128) (v.extractLsb' 0 7) := by
  rw [memRefWord_eq] at h
  split at h
  case isTrue => cases h
  case isFalse hfault =>
    rw [memRefFields_or, Bool.false_or] at h
    have hreach := or_iff_not_imp_left.2 fun hpage => not_le.1 fun hle => hfault ⟨rfl, hpage, hle⟩
    exact ⟨hreach, (Except.ok.inj h).symm⟩

/-- The base values of the six mnemonics are the encoder's words with no field set. -/
theorem memRefTable_base_eq_encode {base : Word} (h : base ∈ memRefTable.map Prod.snd) :
    ∃ op, base = encodeMemRef op false false 0#7 := by
  have hall : ∀ b ∈ memRefTable.map Prod.snd, b = encodeMemRef (opcodeField b) false false 0#7 := by decide
  exact ⟨_, hall base h⟩

/-- Settles O56: the word's fields read back as planted, and from them the intermediate address is the target. -/
theorem assembledTargetIsTheEffectiveAddress : Obligations.AssembledTargetIsTheEffectiveAddress := by
  intro i base v ic w text s hbase hw hpc
  obtain ⟨op, rfl⟩ := memRefTable_base_eq_encode hbase
  obtain ⟨hreach, rfl⟩ := memRefWord_encode_ok hw
  have hoff := offsetField_encodeMemRef op i (v.toNat / 128 != ic.toNat / 128) (v.extractLsb' 0 7)
  rw [offsetField] at hoff
  rw [getLsbD_eight_encodeMemRef, getLsbD_seven_encodeMemRef, hoff]
  exact resolve_eq_of_baseAddress (baseAddress_of_target hpc hreach) i

end Sys2Proof.Machine
end
